-- ==== Sys2Proof/Word.lean ====
section
/-! DEFINITION. The word types of the CRC engine: a data byte, and the native datapath word of
W_MAX = 64 bits (00_scope.md R7, R8; decision D1). Every value is unsigned (R8). -/

namespace Sys2Proof

/-- A byte: a data byte, a frame byte, or the index of a table entry (R8, R25, R26). -/
abbrev Byte := BitVec 8

/-- A `W_MAX`-bit container: every value register, every table entry and the result port (R7, R10). -/
abbrev Word := BitVec 64

end Sys2Proof
end

