-- ==== Sys2Proof/Config.lean ====
section
/-! DEFINITION. What an implementation of the engine fixes (00_scope.md R7) and the one value the
spec leaves to the host: the content of the lookup table (10_state.md R19, 20_memory.md R28). -/

namespace Sys2Proof.Config

/-- `W_MAX`, the native datapath width in bits (R7; decision D1). `Word` has this width. -/
def wMax : Nat := 64

/-- `LEN_BITS`, the width of the LEN field of a CALC or ACCUM frame (R7, R38; decision D6). -/
def lenBits : Nat := 32

/-- `TABLE_DEPTH`, the number of table entries (R7, R25). -/
def tableDepth : Nat := 256

/-- `WIDTHS`, the legal values of the WIDTH register: every multiple of 8 from 8 to `W_MAX`
(R7, R11; decision D2; 90_conflicts.md C8). -/
def widths : List Nat := [8, 16, 24, 32, 40, 48, 56, 64]

/-- FREE VALUE (assumption 4). What the table memory holds at index `i` where the model has been
given no entry: the content of the table is the host's, a parameter the engine does not interpret
(R19, R28, R101; 93_implementation_defined.md U3). It has no body, so nothing can be proved of it
that does not hold of every table. -/
opaque table : Nat → Word

end Sys2Proof.Config
end

