-- ==== Sys2Proof/Syntax.lean ====
section
/-! DEFINITION. The commands of the engine, one constructor per row of spec/opcode_table.json
(00_scope.md R2, 30_encoding.md R40), and the parameter record that INIT carries. -/

namespace Sys2Proof

/-- The parameter record: the operand of INIT and, once loaded, the six parameter registers
(10_state.md R10 to R16; 30_encoding.md R38 format P, R49). -/
structure Params where
  /-- WIDTH, the checksum width as a plain number of bits, in an 8-bit container (R11, D4). -/
  width : Byte
  /-- INPUT_REFLECTED, one bit (R12). -/
  inputReflected : Bool
  /-- RESULT_REFLECTED, one bit (R13). -/
  resultReflected : Bool
  /-- POLYNOMIAL, stored and read by no command (R14). -/
  polynomial : Word
  /-- INITIAL_VALUE (R15). -/
  initialValue : Word
  /-- FINAL_XOR_VALUE (R16). -/
  finalXorValue : Word
deriving DecidableEq, Repr

/-- A command. The data operand of CALC and ACCUM is the list `DATA[0] .. DATA[LEN-1]`, so LEN is
its length (20_memory.md R29, 30_encoding.md R42). The value fields of INIT are those of the frame,
not yet truncated to WIDTH bits (R41). -/
inductive Instr where
  /-- INIT, opcode 0x01, format P (R40, R50). -/
  | init (p : Params)
  /-- CALC, opcode 0x02, format D (R40, R70). (`calc` is a word of Lean and cannot be a name.) -/
  | calculate (data : List Byte)
  /-- ACCUM, opcode 0x03, format D (R40, R73). -/
  | accum (data : List Byte)
  /-- RESET, opcode 0x04, format N (R40, R76). -/
  | reset
  /-- GET, opcode 0x05, format N (R40, R77). -/
  | get
deriving DecidableEq, Repr

/-- FINALIZE, the pseudo-command that is another spelling of GET (30_encoding.md R48). -/
abbrev Pseudo.finalize : Instr := .get

/-- PEEK, the pseudo-command `ACCUM ""` (30_encoding.md R48). -/
abbrev Pseudo.peek : Instr := .accum []

end Sys2Proof
end

