-- ==== Sys2Proof/WellFormed.lean ====
section
/-! DEFINITION. Which commands have a frame (30_encoding.md R38, R42, R44): INIT with a WIDTH in
`WIDTHS`, CALC and ACCUM with a data operand whose length the LEN field can hold. The reserved bits
23:18 of an INIT frame are no operand: the decoder checks them. -/

namespace Sys2Proof

/-- WIDTH is a member of `WIDTHS` (R7, R11, R44). -/
def Params.widthLegal (p : Params) : Bool := decide (p.width.toNat ∈ Config.widths)

/-- The length of a data operand fits the LEN field: at most `2^LEN_BITS - 1` bytes (R38, R42). -/
def lenLegal (data : List Byte) : Bool := decide (data.length < 2 ^ Config.lenBits)

/-- The command can be written as a well-formed frame (R38, R42, R44). -/
def Instr.wellFormed : Instr → Bool
  | .init p => p.widthLegal
  | .calculate data => lenLegal data
  | .accum data => lenLegal data
  | .reset => true
  | .get => true

end Sys2Proof
end

