-- ==== Sys2Proof/Decode.lean ====
section
/-! DEFINITION. The frames of 30_encoding.md: the decoder, total on any bytes and rejecting by name
(R38 to R44), and after it the encoder. The command port is read as a sequence of bytes in the
canonical serialisation of R39 (assumption 6). -/

namespace Sys2Proof

/-! ## Serialisation (R39) -/

/-- The number a sequence of bytes stands for, least significant byte first (R39). -/
def leNat : List Byte → Nat
  | [] => 0
  | b :: bs => b.toNat + 256 * leNat bs

/-- The low `n` bytes of a number, least significant byte first: byte `k` is bits `8k+7` down to
`8k` (R39). -/
def leBytes : Nat → Nat → List Byte
  | 0, _ => []
  | n + 1, v => BitVec.ofNat 8 v :: leBytes n (v / 256)

/-! ## The opcode map (R40) -/

/-- Opcode byte of INIT. -/
def Opcode.init : Byte := 0x01
/-- Opcode byte of CALC. -/
def Opcode.calc : Byte := 0x02
/-- Opcode byte of ACCUM. -/
def Opcode.accum : Byte := 0x03
/-- Opcode byte of RESET. -/
def Opcode.reset : Byte := 0x04
/-- Opcode byte of GET. -/
def Opcode.get : Byte := 0x05

/-- The opcode byte of a command (R40). -/
def Instr.opcode : Instr → Byte
  | .init _ => Opcode.init
  | .calculate _ => Opcode.calc
  | .accum _ => Opcode.accum
  | .reset => Opcode.reset
  | .get => Opcode.get

/-! ## The decoder -/

/-- Why the bytes on the command port give no command. -/
inductive DecodeError where
  /-- There is no byte: the host has issued no further command (70_reset_and_hazards.md R105). -/
  | noCommand
  /-- The bytes end before the frame does (R38, R42). -/
  | incompleteFrame
  /-- The opcode byte is 0x00 or 0x06 to 0xFF (R43). -/
  | reservedOpcode (op : Byte)
  /-- An INIT frame whose WIDTH field is no member of `WIDTHS` (R44). -/
  | illegalWidth (width : Byte)
  /-- An INIT frame with a 1 among its reserved bits 23:18 (R44). -/
  | reservedBitsSet
deriving DecidableEq, Repr

/-- The fields of a format P frame (R38). -/
def initFields (f : BitVec 216) : Params where
  width := f.extractLsb' 8 8
  inputReflected := f.getLsbD 16
  resultReflected := f.getLsbD 17
  polynomial := f.extractLsb' 24 64
  initialValue := f.extractLsb' 88 64
  finalXorValue := f.extractLsb' 152 64

/-- Decode what follows the opcode byte of a format P frame: 26 more bytes (R38, R39, R41, R44). -/
def decodeInit (rest : List Byte) : Except DecodeError (Instr × List Byte) :=
  if rest.length < 26 then .error .incompleteFrame
  else
    let f : BitVec 216 := BitVec.ofNat 216 (leNat (Opcode.init :: rest.take 26))
    let p := initFields f
    if !p.widthLegal then .error (.illegalWidth p.width)
    else if f.extractLsb' 18 6 ≠ 0 then .error .reservedBitsSet
    else .ok (.init p, rest.drop 26)

/-- The LEN field of a format D header, given its four bytes (frame bits 39:8, R38, R42). -/
def lenField (bytes : List Byte) : Nat := (BitVec.ofNat 32 (leNat bytes)).toNat

/-- Decode what follows the opcode byte of a format D frame: LEN, then exactly LEN data bytes, each
used as given (R38, R42). -/
def decodeData (mk : List Byte → Instr) (rest : List Byte) :
    Except DecodeError (Instr × List Byte) :=
  if rest.length < 4 then .error .incompleteFrame
  else
    let len := lenField (rest.take 4)
    let body := rest.drop 4
    if body.length < len then .error .incompleteFrame
    else .ok (mk (body.take len), body.drop len)

/-- Decode the first frame of the bytes on the command port: the command and the bytes after it.
The opcode byte alone tells the format (R38, R40, R43, R46). -/
def decode : List Byte → Except DecodeError (Instr × List Byte)
  | [] => .error .noCommand
  | op :: rest =>
    if op = Opcode.init then decodeInit rest
    else if op = Opcode.calc then decodeData .calculate rest
    else if op = Opcode.accum then decodeData .accum rest
    else if op = Opcode.reset then .ok (.reset, rest)
    else if op = Opcode.get then .ok (.get, rest)
    else .error (.reservedOpcode op)

/-! ## The encoder -/

/-- The 216 bits of a format P frame, highest field first (R38). -/
def initFrame (p : Params) : BitVec 216 :=
  p.finalXorValue ++ p.initialValue ++ p.polynomial ++ (0 : BitVec 6) ++
    BitVec.ofBool p.resultReflected ++ BitVec.ofBool p.inputReflected ++ p.width ++ Opcode.init

/-- The 40 header bits of a format D frame (R38). -/
def dataHeader (op : Byte) (data : List Byte) : BitVec 40 :=
  BitVec.ofNat 32 data.length ++ op

/-- A format D frame: the 5 header bytes and the data bytes in index order (R38, R39). -/
def encodeData (op : Byte) (data : List Byte) : List Byte :=
  leBytes 5 (dataHeader op data).toNat ++ data

/-- The frame of a command as bytes (R38, R39, R40). -/
def encode : Instr → List Byte
  | .init p => leBytes 27 (initFrame p).toNat
  | .calculate data => encodeData Opcode.calc data
  | .accum data => encodeData Opcode.accum data
  | .reset => [Opcode.reset]
  | .get => [Opcode.get]

/-- The frames of a command sequence, one after another: after a frame's last byte the next byte is
the opcode of the next frame (R42). -/
def encodeAll : List Instr → List Byte
  | [] => []
  | i :: is => encode i ++ encodeAll is

/-! ## Words as spec/opcode_table.json numbers them -/

/-- How many bytes the frame that starts with these bytes has (R38, R39); a byte that is no opcode
counts as one. -/
def frameSize : List Byte → Nat
  | [] => 0
  | op :: rest =>
    if op = Opcode.init then 27
    else if op = Opcode.calc ∨ op = Opcode.accum then 5 + lenField (rest.take 4)
    else 1

/-- The bytes of the frame whose low `nbits` bits are those of `w` and whose other bits are 0
(assumption 17). -/
def frameBytes (nbits w : Nat) : List Byte :=
  let raw := leBytes ((nbits + 7) / 8) (w % 2 ^ nbits)
  let size := frameSize (raw ++ List.replicate 5 0)
  (raw ++ List.replicate size 0).take size

/-- The command the decoder reads from the frame whose bits are `w`, bit 0 the least significant bit
of its first byte; none where the decoder refuses. -/
def decodeTableWord (nbits w : Nat) : Option Instr :=
  match decode (frameBytes nbits w) with
  | .ok (i, _) => some i
  | .error _ => none

end Sys2Proof
end

