-- ==== Sys2Proof/Machine/State.lean ====
section
/-! DEFINITION. The state of the engine and of its interface, as plain data, the reasons a step can
stop, and the state after power-on reset (10_state.md R10 to R24, 30_encoding.md R37,
70_reset_and_hazards.md R101 to R105). -/

namespace Sys2Proof.Machine

/-- One entry of the table memory that the host has supplied: its index and its `W_MAX`-bit content
(20_memory.md R25, R26). The table space is addressed by entry, not by byte (R30). -/
abbrev TableCell := Nat × Word

/-- The table memory: the supplied entries, indexes strictly rising. An entry that is not listed
reads as `Config.table` (assumption 4). -/
abbrev Memory := List TableCell

/-- No command of the engine faults: the block raises no exception and reports no error
(60_exceptions.md R91 to R95), so there is no fault reason. -/
inductive Fault where
deriving DecidableEq, Repr

/-- Why a step gives a command sequence no meaning. -/
inductive Refusal where
  /-- An instruction that has no meaning yet. No arm of `exec` raises it. Safe. -/
  | notModelled (mnemonic : String)
  /-- Raised by the fetch: the command port is empty, the run has ended (R105, D12; assumption 7).
  Safe. -/
  | noCommand
  /-- Raised by the fetch: the bytes on the command port end inside a frame (R38; assumption 8).
  Safe. -/
  | incompleteFrame
  /-- Raised by the fetch: a reserved opcode byte, which has no behaviour (R43, D8). Safe. -/
  | reservedOpcode (op : Byte)
  /-- Raised by the fetch, and by INIT itself: a malformed INIT, WIDTH no member of `WIDTHS`, which
  has no behaviour (R44, D8). Safe. -/
  | illegalWidth (width : Byte)
  /-- Raised by the fetch: a malformed INIT frame, reserved bits 23:18 not all 0 (R44, D8). Safe. -/
  | reservedBitsSet
  /-- Raised by CALC, ACCUM, RESET and GET on an engine that has executed no INIT since power-on
  (R103: "a model refuses a command sequence in which any other command precedes the first INIT";
  R24, D9, U5). Safe. -/
  | unconfigured
deriving DecidableEq, Repr

/-- The seven registers of one engine instance (R10) with the condition that they hold values
(R24, R101), and the three connections of its interface that carry data (R37). -/
structure State where
  /-- The six parameter registers WIDTH, INPUT_REFLECTED, RESULT_REFLECTED, POLYNOMIAL,
  INITIAL_VALUE, FINAL_XOR_VALUE (R10 to R16). -/
  params : Params
  /-- ACCUMULATE, the running register (R18). -/
  accumulate : Word
  /-- Whether an INIT has executed since power-on reset. While it is false the seven registers hold
  no value in the spec's sense and no command reads them (R24, R101, R103; assumption 2). -/
  configured : Bool
  /-- The table memory attached to the instance, read-only to the engine (R19, R25 to R28). -/
  table : Memory
  /-- The command port: the bytes the host has sent and the engine has not consumed (R37, R39). -/
  pending : List Byte
  /-- The index of the next command in the host's sequence, which is what the spec answers where a
  model asks for a program counter; it is the host's, not the engine's (R21, D13). -/
  commandIndex : Nat
  /-- The result port: the values delivered so far, oldest first (R37, R45, R105). -/
  results : List Word
deriving DecidableEq, Repr

/-- What the seven register containers hold while the engine is unconfigured: zero, a DESIGN CHOICE
(assumption 1); the spec gives no value and no command reads it (R24, R101). -/
def Params.powerOn : Params where
  width := 0
  inputReflected := false
  resultReflected := false
  polynomial := 0
  initialValue := 0
  finalXorValue := 0

/-- The machine after power-on reset (R24, R101): unconfigured, nothing supplied in the table
memory, no command sent, no result delivered. -/
def State.reset : State where
  params := Params.powerOn
  accumulate := 0
  configured := false
  table := []
  pending := []
  commandIndex := 0
  results := []

end Sys2Proof.Machine
end

