-- ==== Sys2Proof/Machine/Ops.lean ====
section
/-! DEFINITION. The named operations every command is written with: truncation, the
bit_reflection_unit, the table memory, the register writes, the result port, the fetch of a frame,
and what the host can do to the machine. The block takes no exception and has no trap entry or
return (60_exceptions.md R91 to R95), so there is no operation for either. -/

namespace Sys2Proof.Machine

/-! ## w-bit values -/

/-- `trunc_n(v)`: the low `n` bits of `v` (00_scope.md R9), which makes a `W_MAX`-bit container
behave as exactly `n` bits wide (42_datapath.md R58). -/
def trunc (n : Nat) (v : Word) : Word := (v.setWidth n).setWidth 64

/-! ## The bit_reflection_unit (41_reflection_unit.md) -/

/-- The loop of R53: `n` times, shift the result left, move bit 0 of the value into it, shift the
value right. -/
def reverseLoop : Nat → Word → Word → Word
  | 0, out, _ => out
  | n + 1, out, v => reverseLoop n ((out <<< 1) ||| (v &&& 1)) (v >>> 1)

/-- `reverse_bits(value, n)` (R53). -/
def reverseBits (v : Word) (n : Nat) : Word := reverseLoop n 0 v

/-- The input path's use of the unit: `reverse_bits(b, 8)` on a data byte (R56). -/
def reverseByte (b : Byte) : Byte := (reverseBits (b.setWidth 64) 8).setWidth 8

/-! ## The table memory (20_memory.md) -/

/-- The content of table entry `i` (R26): what the host supplied, else the free value. -/
def Memory.read : Memory → Nat → Word
  | [], i => Config.table i
  | (k, v) :: m, i => if k = i then v else Memory.read m i

/-- The host's write of one table entry (R104, R105). It keeps the canonical form: writing what an
unlisted entry reads as removes the entry. No command writes the table (R27). -/
def Memory.write : Memory → Nat → Word → Memory
  | [], i, v => if v = Config.table i then [] else [(i, v)]
  | (k, u) :: m, i, v =>
    if i < k then
      if v = Config.table i then (k, u) :: m else (i, v) :: (k, u) :: m
    else if i = k then
      if v = Config.table i then m else (i, v) :: m
    else (k, u) :: Memory.write m i v

/-- The host's supply of entries from index `i` upwards, in order (R104). -/
def Memory.writeFrom (m : Memory) : Nat → List Word → Memory
  | _, [] => m
  | i, v :: vs => Memory.writeFrom (Memory.write m i v) (i + 1) vs

/-- The canonical form of the table memory: indexes strictly rising and below 256 (R25), and no
listed entry equal to what an unlisted entry reads as. -/
abbrev Memory.wf (m : Memory) : Prop :=
  m.Pairwise (fun c d => c.1 < d.1) ∧
    ∀ c ∈ m, c.1 < Config.tableDepth ∧ c.2 ≠ Config.table c.1

/-- `TableRead(i)` as the engine does it; the index is a byte, so it cannot leave the table
(R26, R68). -/
def State.tableRead (s : State) (i : Byte) : Word := Memory.read s.table i.toNat

/-! ## Registers and the result port -/

/-- `w`, the content of WIDTH as a number of bits (R8, R11). -/
def State.w (s : State) : Nat := s.params.width.toNat

/-- Write ACCUMULATE (R18). -/
def State.setAccumulate (s : State) (v : Word) : State := { s with accumulate := v }

/-- Write the six parameter registers and ACCUMULATE at once; the engine is configured from then on
(R24, 40_configuration.md R50). -/
def State.configure (s : State) (p : Params) (acc : Word) : State :=
  { s with params := p, accumulate := acc, configured := true }

/-- Deliver one value on the result port (30_encoding.md R45); results stand in the order of the
commands that produce them. The port is `W_MAX` bits wide and the value is already in such a
container, its upper bits 0, so no further extension is needed. -/
def State.deliver (s : State) (v : Word) : State := { s with results := s.results ++ [v] }

/-- `ACCUMULATE <- INITIAL_VALUE`, what RESET does and what GET ends with (44_incremental.md R76,
R77). -/
def State.restoreInitial (s : State) : State := s.setAccumulate s.params.initialValue

/-- Run CALC, ACCUM, RESET or GET: before the first INIT the spec gives the command no behaviour and
says that a model refuses it (70_reset_and_hazards.md R103; 10_state.md R24; D9; U5). -/
def State.ifConfigured (s : State) (k : State → Host.Outcome State Fault Refusal) :
    Host.Outcome State Fault Refusal :=
  if s.configured then k s else .refused .unconfigured

/-! ## Fetching a frame from the command port -/

/-- The refusal that stands for a frame the decoder gives no command for (R43, R44). -/
def refusalOf : DecodeError → Refusal
  | .noCommand => .noCommand
  | .incompleteFrame => .incompleteFrame
  | .reservedOpcode op => .reservedOpcode op
  | .illegalWidth w => .illegalWidth w
  | .reservedBitsSet => .reservedBitsSet

/-- Move past a frame: the bytes after it remain on the command port, and the host's position
advances by one command (R21, R42). -/
def State.consume (s : State) (rest : List Byte) : State :=
  { s with pending := rest, commandIndex := s.commandIndex + 1 }

/-- Take the next command from the command port (R37, R42, R43). -/
def State.fetch (s : State) : Except Refusal (Instr × State) :=
  match decode s.pending with
  | .ok (i, rest) => .ok (i, s.consume rest)
  | .error e => .error (refusalOf e)

/-! ## The host (70_reset_and_hazards.md R104, R105; 30_encoding.md R37). None of these is a step. -/

/-- The host sends bytes: they stand behind those already on the command port (R37, R39). -/
def State.send (s : State) (bytes : List Byte) : State := { s with pending := s.pending ++ bytes }

/-- The host puts a frame in front of the command port, so that it is fetched next
(assumption 16). -/
def State.sendFirst (s : State) (bytes : List Byte) : State :=
  { s with pending := bytes ++ s.pending }

/-- The host supplies table entries 0, 1, 2, ... (R104 (1), R105); at most 256 are used (R25). -/
def State.supplyTable (s : State) (entries : List Word) : State :=
  { s with table := Memory.writeFrom s.table 0 (entries.take Config.tableDepth) }

/-- Power-on reset of a machine that has run (R37 (d), R101): the registers lose their values and
the engine is unconfigured; the table memory is not reset, and what the host has sent and received
is the host's (assumption 18). -/
def State.powerOn (s : State) : State :=
  { s with params := Params.powerOn, accumulate := 0, configured := false }

end Sys2Proof.Machine
end

