-- ==== Sys2Proof/Machine/Operands.lean ====
section
/-! DEFINITION. How the operands of a command reach the datapath: the truncated parameter record of
INIT (30_encoding.md R41), the data byte as each branch uses it, the table index (the block's only
effective address, 42_datapath.md R68) and the table entry truncated to w bits. -/

namespace Sys2Proof.Machine

/-- The parameter record as INIT loads it: the three value fields truncated to the WIDTH of the same
frame, nothing reflected, shifted or extended (R41, R51 (d), R52). -/
def truncParams (p : Params) : Params :=
  { p with
    polynomial := trunc p.width.toNat p.polynomial
    initialValue := trunc p.width.toNat p.initialValue
    finalXorValue := trunc p.width.toNat p.finalXorValue }

/-- `T(i) = trunc_w(TableRead(i))`, with `read` the table port (R26, R58). -/
def entry (w : Nat) (read : Byte → Word) (i : Byte) : Word := trunc w (read i)

/-- `x`: the data byte as Branch B uses it, its 8 bits reversed when INPUT_REFLECTED is 1
(R56 (a), R64). -/
def inputByte (inputReflected : Bool) (b : Byte) : Byte :=
  if inputReflected then reverseByte b else b

/-- Branch A's index: the low byte of the register XOR the data byte (R62, R68). -/
def indexA (r : Word) (b : Byte) : Byte := r.setWidth 8 ^^^ b

/-- `t`: Branch B's register with the byte XORed into its top 8 bits (R64). -/
def mixB (w : Nat) (r : Word) (x : Byte) : Word := r ^^^ (x.setWidth 64 <<< (w - 8))

/-- Branch B's index: the top byte of `t`, the AND with 0xFF being the cut to a byte (R64, R68). -/
def indexB (w : Nat) (t : Word) : Byte := (t >>> (w - 8)).setWidth 8

end Sys2Proof.Machine
end

