-- ==== Sys2Proof/Machine/Configuration.lean ====
section
/-! DEFINITION. The meaning of INIT (40_configuration.md R50 to R52). -/

namespace Sys2Proof.Machine

/-- INIT: load the parameter record, its value fields truncated to the frame's own WIDTH, and set
ACCUMULATE to the truncated initial value (R50). It runs at any time, on a configured engine as on an
unconfigured one (R51 (a), R103; D16). A record whose WIDTH is illegal has no behaviour (R44). -/
def execInit (p : Params) (s : State) : Host.Outcome State Fault Refusal :=
  if p.widthLegal then .next (s.configure (truncParams p) (truncParams p).initialValue)
  else .refused (.illegalWidth p.width)

end Sys2Proof.Machine
end

