-- ==== Sys2Proof/Machine/Flags.lean ====
section
/-! DEFINITION. What the two reflection flags decide (42_datapath.md R61, R67). They are
configuration bits: the block has no condition codes, and no command sets a flag as a side effect
(10_state.md R22). -/

namespace Sys2Proof.Machine

/-- The two datapath branches (R61). -/
inductive Branch where
  /-- Branch A: right-shifting, reflected on both sides. -/
  | a
  /-- Branch B: left-shifting, the general one. -/
  | b
deriving DecidableEq, Repr

/-- Branch A when both flags are 1, Branch B otherwise (R61). -/
def selectBranch (p : Params) : Branch :=
  match p.inputReflected, p.resultReflected with
  | true, true => .a
  | _, _ => .b

/-- Whether the output stage reverses the register: in Branch B with RESULT_REFLECTED = 1, that is
in the output-only configuration and no other (R61, R67). -/
def reversesResult (p : Params) : Bool :=
  match selectBranch p with
  | .a => false
  | .b => p.resultReflected

end Sys2Proof.Machine
end

