-- ==== Sys2Proof/Machine/Datapath.lean ====
section
/-! DEFINITION. The datapath that CALC and ACCUM share: the byte folds, the fold of a buffer and the
output stage (42_datapath.md R58 to R69). `read` is the table port, `w` the width in bits. -/

namespace Sys2Proof.Machine

/-- `fold_A(r, b)` (R62). -/
def foldA (w : Nat) (read : Byte → Word) (r : Word) (b : Byte) : Word :=
  (r >>> 8) ^^^ entry w read (indexA r b)

/-- `fold_B(r, b)` with INPUT_REFLECTED = `ir` (R64). -/
def foldB (w : Nat) (ir : Bool) (read : Byte → Word) (r : Word) (b : Byte) : Word :=
  let t := mixB w r (inputByte ir b)
  trunc w (t <<< 8) ^^^ entry w read (indexB w t)

/-- The fold of the branch the flags select, for the whole command (R61, R66). -/
def foldByte (p : Params) (read : Byte → Word) (r : Word) (b : Byte) : Word :=
  match selectBranch p with
  | .a => foldA p.width.toNat read r b
  | .b => foldB p.width.toNat p.inputReflected read r b

/-- `fold_buffer(r0, DATA)`: every byte in index order, no early exit (R34, R66). -/
def foldBuffer (p : Params) (read : Byte → Word) (r0 : Word) (data : List Byte) : Word :=
  data.foldl (foldByte p read) r0

/-- The two values of the output stage (R67). -/
structure Output where
  /-- The register value to keep, before the final XOR. -/
  stored : Word
  /-- The externally visible value. -/
  visible : Word
deriving DecidableEq, Repr

/-- What the output stage keeps: the register, reversed over w bits in the output-only configuration
(R67). -/
def storedValue (p : Params) (r : Word) : Word :=
  if reversesResult p then reverseBits r p.width.toNat else r

/-- `output_stage(r)`: FINAL_XOR_VALUE enters the visible value only (R67). -/
def outputStage (p : Params) (r : Word) : Output where
  stored := storedValue p r
  visible := storedValue p r ^^^ p.finalXorValue

/-- The datapath of one CALC or ACCUM: fold the data operand from the start value `r0`, then the
output stage once, also when there is no data (R66, R67). -/
def State.process (s : State) (r0 : Word) (data : List Byte) : Output :=
  outputStage s.params (foldBuffer s.params s.tableRead r0 data)

end Sys2Proof.Machine
end

