-- ==== Sys2Proof/Machine/Incremental.lean ====
section
/-! DEFINITION. The meanings of ACCUM, RESET and GET (44_incremental.md R73 to R79). -/

namespace Sys2Proof.Machine

/-- ACCUM: fold the data from ACCUMULATE, keep the stored value in ACCUMULATE and return the visible
one (R73). -/
def execAccum (data : List Byte) (s : State) : Host.Outcome State Fault Refusal :=
  s.ifConfigured fun s =>
    let out := s.process s.accumulate data
    .next ((s.setAccumulate out.stored).deliver out.visible)

/-- RESET: ACCUMULATE takes INITIAL_VALUE; nothing is returned (R76). -/
def execReset (s : State) : Host.Outcome State Fault Refusal :=
  s.ifConfigured fun s => .next s.restoreInitial

/-- GET: return ACCUMULATE XOR FINAL_XOR_VALUE, formed before ACCUMULATE takes INITIAL_VALUE; nothing
is reflected (R77). -/
def execGet (s : State) : Host.Outcome State Fault Refusal :=
  s.ifConfigured fun s =>
    .next (s.restoreInitial.deliver (s.accumulate ^^^ s.params.finalXorValue))

end Sys2Proof.Machine
end

