-- ==== Sys2Proof/Machine/OneShot.lean ====
section
/-! DEFINITION. The meaning of CALC (43_oneshot.md R70 to R72). -/

namespace Sys2Proof.Machine

/-- CALC: fold the data from INITIAL_VALUE and return the visible value; no register is written and
ACCUMULATE is not read (R70). -/
def execCalc (data : List Byte) (s : State) : Host.Outcome State Fault Refusal :=
  s.ifConfigured fun s => .next (s.deliver (s.process s.params.initialValue data).visible)

end Sys2Proof.Machine
end

