-- ==== Sys2Proof/Machine/Dispatch.lean ====
section
/-! DEFINITION. The effect of each command, one arm per constructor of Instr (30_encoding.md R40). -/

namespace Sys2Proof.Machine

/-- The effect of a command on the state in which its frame has been taken from the command port. -/
def exec (i : Instr) (s : State) : Host.Outcome State Fault Refusal :=
  match i with
  | .init p => Sys2Proof.Machine.execInit p s
  | .calculate data => Sys2Proof.Machine.execCalc data s
  | .accum data => Sys2Proof.Machine.execAccum data s
  | .reset => Sys2Proof.Machine.execReset s
  | .get => Sys2Proof.Machine.execGet s

end Sys2Proof.Machine
end

