-- ==== Sys2Proof/Machine/Step.lean ====
section
/-! DEFINITION. One step of the engine: one whole command (20_memory.md R33, decision D12). -/

namespace Sys2Proof.Machine

/-- Take the next command from the command port and execute it whole (R21, R33, R37). -/
def step (s : State) : Host.Outcome State Fault Refusal :=
  match s.fetch with
  | .ok (i, s') => exec i s'
  | .error r => .refused r

/-- `s` with the frame whose low `nbits` bits are `w` in front of the command port (assumption 16). -/
def State.withFetchWord (s : State) (nbits w : Nat) : State := s.sendFirst (frameBytes nbits w)

end Sys2Proof.Machine
end

