-- ==== Sys2Proof/Safety.lean ====
section
/-! DEFINITION. What the claims are stated in: the invariant of the engine (10_state.md R17,
45_properties.md R87), the configurations, the run of a command sequence, and what the spec lets the
host do to the table (20_memory.md R113). -/

namespace Sys2Proof

/-- The command is a CALC. -/
def Instr.isCalc : Instr → Bool
  | .calculate _ => true
  | .init _ => false
  | .accum _ => false
  | .reset => false
  | .get => false

/-- The command is an INIT. -/
def Instr.isInit : Instr → Bool
  | .init _ => true
  | .calculate _ => false
  | .accum _ => false
  | .reset => false
  | .get => false

/-- How many values a command delivers on the result port (30_encoding.md R45). -/
def Instr.resultCount : Instr → Nat
  | .init _ => 0
  | .calculate _ => 1
  | .accum _ => 1
  | .reset => 0
  | .get => 1

end Sys2Proof

namespace Sys2Proof.Machine

/-- `v` is an `n`-bit value (00_scope.md R8). -/
def fits (n : Nat) (v : Word) : Prop := v.toNat < 2 ^ n

/-- The registers hold a legal configuration: WIDTH is in `WIDTHS` and the four value registers hold
w-bit values (R11, R17). -/
structure RegistersFit (s : State) : Prop where
  width : s.w ∈ Config.widths
  polynomial : fits s.w s.params.polynomial
  initialValue : fits s.w s.params.initialValue
  finalXorValue : fits s.w s.params.finalXorValue
  accumulate : fits s.w s.accumulate

/-- The invariant: the table memory is in canonical form, and a configured engine's registers fit its
WIDTH (R17, R87). -/
structure Invariant (s : State) : Prop where
  table : Memory.wf s.table
  registers : s.configured = true → RegistersFit s

/-- The output-only configuration, IR = 0 and RR = 1 (45_properties.md, notation). -/
def outputOnly (p : Params) : Prop := p.inputReflected = false ∧ p.resultReflected = true

/-- A fresh engine: ACCUMULATE = INITIAL_VALUE (45_properties.md, notation). -/
def Fresh (s : State) : Prop := s.accumulate = s.params.initialValue

/-- Execute a command sequence, one whole command after another, in order (R33). -/
def runCommands : List Instr → State → Host.Outcome State Fault Refusal
  | [], s => .next s
  | i :: is, s =>
    match exec i s with
    | .next t => runCommands is t
    | .fault r => .fault r
    | .refused r => .refused r

/-- Apply a function to the state an outcome holds. -/
def mapNext (f : State → State) : Host.Outcome State Fault Refusal → Host.Outcome State Fault Refusal
  | .next t => .next (f t)
  | .fault r => .fault r
  | .refused r => .refused r

/-- The same state with another POLYNOMIAL. -/
def State.setPolynomial (s : State) (v : Word) : State :=
  { s with params := { s.params with polynomial := v } }

/-- The same state with another FINAL_XOR_VALUE. -/
def State.setFinalXor (s : State) (v : Word) : State :=
  { s with params := { s.params with finalXorValue := v } }

/-- The same state with other content in the table memory. -/
def State.setTable (s : State) (m : Memory) : State := { s with table := m }

/-- The host may change the table only immediately before an INIT (R113): the next command on the
command port is an INIT. -/
def tableChangeAllowed (s : State) : Prop := ∃ p rest, decode s.pending = .ok (.init p, rest)

end Sys2Proof.Machine
end

