-- ==== Sys2Proof/Certificates/Slice0/Obligations.lean ====
section
/-! DEFINITION. The statements for the provers. Each docstring names the rule or the section of the
spec that the statement formalises. -/

open Sys2Proof Sys2Proof.Machine

/-! ## Frames (30_encoding.md) -/

/-- 95_test_vectors.md V18: frames written out byte by byte decode to the commands listed there. -/
def Obligations.ListedFramesDecodeToTheirCommands : Prop :=
  decode [0x01, 0x10, 0x02, 0x21, 0x10, 0, 0, 0, 0, 0, 0, 0x0F, 0x1D, 0, 0, 0, 0, 0, 0,
      0x01, 0, 0, 0, 0, 0, 0, 0] =
    .ok (.init ⟨16, false, true, 0x1021, 0x1D0F, 0x0001⟩, []) ∧
  decode [0x02, 0x04, 0, 0, 0, 0x31, 0x32, 0x33, 0x34] =
    .ok (.calculate [0x31, 0x32, 0x33, 0x34], []) ∧
  decode [0x03, 0x02, 0, 0, 0, 0x04, 0x05] = .ok (.accum [0x04, 0x05], []) ∧
  decode [0x04] = .ok (.reset, []) ∧
  decode [0x05] = .ok (.get, [])

/-- R39, with the bit positions of R38: byte `k` of a frame is frame bits `8k+7` down to `8k`, for
every field at every value; an INIT frame has 27 bytes, a CALC or ACCUM frame `5 + LEN`, a RESET or
GET frame 1, and the data bytes follow the header in index order. -/
def Obligations.FrameBytesAreTheFrameBitsInOrder : Prop :=
  (∀ p : Params, (encode (.init p)).length = 27 ∧
    ∀ k < 27, (encode (.init p))[k]? = some (BitVec.ofNat 8
      ((0x01 + p.width.toNat * 2 ^ 8 + p.inputReflected.toNat * 2 ^ 16 +
        p.resultReflected.toNat * 2 ^ 17 + p.polynomial.toNat * 2 ^ 24 +
        p.initialValue.toNat * 2 ^ 88 + p.finalXorValue.toNat * 2 ^ 152) / 2 ^ (8 * k)))) ∧
  (∀ data : List Byte, data.length < 2 ^ 32 →
    (∃ header, header.length = 5 ∧ encode (.calculate data) = header ++ data ∧
      ∀ k < 5, header[k]? = some (BitVec.ofNat 8 ((0x02 + data.length * 2 ^ 8) / 2 ^ (8 * k)))) ∧
    (∃ header, header.length = 5 ∧ encode (.accum data) = header ++ data ∧
      ∀ k < 5, header[k]? = some (BitVec.ofNat 8 ((0x03 + data.length * 2 ^ 8) / 2 ^ (8 * k))))) ∧
  encode .reset = [0x04] ∧ encode .get = [0x05]

/-- Decode and encode agree: the frame of every well-formed command, with every operand at every
value the encoding admits, decodes to that command, and the bytes after it are left for the next
frame (R38 to R42). -/
def Obligations.DecodeOfEncodeIsTheCommand : Prop :=
  ∀ (i : Instr) (rest : List Byte), i.wellFormed = true →
    decode (encode i ++ rest) = .ok (i, rest)

/-- The decoder accepts nothing else: whatever it reads a command from is that command's frame, and
the command is well formed. -/
def Obligations.AcceptedBytesAreTheFrameOfTheCommand : Prop :=
  ∀ (bs : List Byte) (i : Instr) (rest : List Byte), decode bs = .ok (i, rest) →
    i.wellFormed = true ∧ bs = encode i ++ rest

/-- R43: opcode bytes 0x00 and 0x06 to 0xFF are reserved; the decoder's verdict on one is "reserved",
whatever follows, and the model refuses a command sequence that holds one, however many commands
stand before it. -/
def Obligations.ReservedOpcodesAreRefused : Prop :=
  ∀ (op : Byte) (rest : List Byte), op = 0 ∨ 6 ≤ op.toNat →
    decode (op :: rest) = .error (.reservedOpcode op) ∧
    (∀ s : State, s.pending = op :: rest → step s = .refused (.reservedOpcode op)) ∧
    (∀ (is : List Instr) (s t : State) (n : Nat), (∀ i ∈ is, i.wellFormed = true) →
      s.pending = encodeAll is ++ op :: rest → is.length < n →
      Host.Core.run core n s ≠ .next t)

/-- R44: a 27-byte frame with opcode 0x01 is an INIT exactly when its WIDTH is a multiple of 8 from 8
to 64 and its reserved bits 23:18 are 0, whatever the value fields hold; otherwise it is malformed
and the model refuses it. -/
def Obligations.InitFrameIsAcceptedExactlyWhenWellFormed : Prop :=
  ∀ (width flags : Byte) (values rest : List Byte), values.length = 24 →
    ((∃ p, decode (0x01 :: width :: flags :: values ++ rest) = .ok (.init p, rest)) ↔
      (8 ∣ width.toNat ∧ 8 ≤ width.toNat ∧ width.toNat ≤ 64) ∧ flags.toNat / 4 = 0) ∧
    (¬ ((8 ∣ width.toNat ∧ 8 ≤ width.toNat ∧ width.toNat ≤ 64) ∧ flags.toNat / 4 = 0) →
      ∀ s : State, s.pending = 0x01 :: width :: flags :: values ++ rest →
        ∃ r, step s = .refused r)

/-! ## The step (20_memory.md, 60_exceptions.md, 70_reset_and_hazards.md) -/

/-- A step runs the decoded command: where the bytes on the command port decode to a command, the
step is `exec` of it on the state whose command port has moved past the frame and whose command index
has advanced by one (10_state.md section 4, 30_encoding.md section 4). That the command port is a
sequence of bytes is the model's choice (assumption 6). -/
def Obligations.StepRunsTheDecodedCommand : Prop :=
  ∀ (s : State) (i : Instr) (rest : List Byte), decode s.pending = .ok (i, rest) →
    step s = exec i { s with pending := rest, commandIndex := s.commandIndex + 1 }

/-- R21: the index of the next command advances by one with every step, and no command changes it
otherwise. -/
def Obligations.CommandIndexAdvancesByOnePerCommand : Prop :=
  (∀ s t : State, step s = .next t → t.commandIndex = s.commandIndex + 1) ∧
  (∀ (i : Instr) (s t : State), exec i s = .next t → t.commandIndex = s.commandIndex)

/-- A step answers a next state exactly when the command port holds a command and the engine is
configured or the command is INIT: there is no other reason to stop (60_exceptions.md section 1,
70_reset_and_hazards.md section 1). That an empty port and an incomplete frame stop the run is the
model's choice (assumptions 7 and 8). -/
def Obligations.StepCompletesExactlyOnCommandsWithAMeaning : Prop :=
  ∀ s : State, (∃ t, step s = .next t) ↔
    ∃ i rest, decode s.pending = .ok (i, rest) ∧ (s.configured = true ∨ ∃ p, i = .init p)

/-- Every command that is well formed and is issued to a configured engine completes, and so does
INIT on an unconfigured one: the step takes exactly its frame and has exactly the effect of its
meaning (60_exceptions.md section 1). -/
def Obligations.WellFormedCommandOnConfiguredEngineCompletes : Prop :=
  ∀ (s : State) (i : Instr) (rest : List Byte), i.wellFormed = true →
    (s.configured = true ∨ ∃ p, i = .init p) → s.pending = encode i ++ rest →
    ∃ t, step s = .next t ∧ exec i (s.consume rest) = .next t ∧
      t.pending = rest ∧ t.commandIndex = s.commandIndex + 1 ∧ t.configured = true

/-- R33: commands take effect one at a time, whole, in the order the host issues them: running the
bytes of a command sequence for as many steps as it has commands is executing the commands one after
another, and leaves the bytes behind them. -/
def Obligations.RunOfFramesExecutesTheCommandsInOrder : Prop :=
  ∀ (is : List Instr) (s : State) (rest : List Byte), (∀ i ∈ is, i.wellFormed = true) →
    s.pending = encodeAll is ++ rest →
    Host.Core.run core is.length s =
      mapNext (fun t => { t with
        pending := rest, commandIndex := s.commandIndex + is.length }) (runCommands is s)

/-- R103: on the unconfigured engine the only command with a meaning is INIT; the model refuses CALC,
ACCUM, RESET and GET there, whatever the register containers hold. -/
def Obligations.UnconfiguredEngineRefusesAllButInit : Prop :=
  ∀ s : State, s.configured = false →
    (∀ data, exec (.calculate data) s = .refused .unconfigured) ∧
    (∀ data, exec (.accum data) s = .refused .unconfigured) ∧
    exec .reset s = .refused .unconfigured ∧
    exec .get s = .refused .unconfigured ∧
    (∀ p, p.width.toNat ∈ Config.widths → ∃ t, exec (.init p) s = .next t ∧ t.configured = true)

/-- After power-on reset the engine is unconfigured; a power-on reset of a running engine unconfigures
it and leaves every table entry as it was (70_reset_and_hazards.md section 1). That no result has been
delivered at the start (assumption 11), and that an INIT after a power-on reset of a running engine
does what it would have done before, are the model's choice: the spec is silent on the command port,
the command index and the delivered results there, and the model keeps them (assumption 18). -/
def Obligations.PowerOnResetUnconfiguresAndKeepsTheTable : Prop :=
  State.reset.configured = false ∧ State.reset.results = [] ∧
  ∀ s : State, s.powerOn.configured = false ∧
    (∀ i : Byte, s.powerOn.tableRead i = s.tableRead i) ∧
    (∀ p, exec (.init p) s.powerOn = exec (.init p) s)

/-- R102: INIT, RESET and GET put ACCUMULATE back to INITIAL_VALUE; RESET, GET, CALC and ACCUM leave
the six parameter registers as they are; CALC leaves ACCUMULATE as it is and ACCUM puts the stored
value of the output stage there; INIT loads the parameter registers from its frame; no command
returns the engine to the unconfigured condition. -/
def Obligations.SoftwareResetsAndWhatEachCommandLeaves : Prop :=
  ∀ (i : Instr) (s t : State), exec i s = .next t →
    t.configured = true ∧
    (match i with
      | .init p => t.params = truncParams p ∧ t.accumulate = t.params.initialValue
      | .calculate _ => t.params = s.params ∧ t.accumulate = s.accumulate
      | .accum data => t.params = s.params ∧ t.accumulate =
          (outputStage s.params (foldBuffer s.params s.tableRead s.accumulate data)).stored
      | .reset => t.params = s.params ∧ t.accumulate = s.params.initialValue
      | .get => t.params = s.params ∧ t.accumulate = s.params.initialValue)

/-- The frame all five commands share: no command writes a table entry, takes bytes from the command
port by itself, or takes back a delivered result (20_memory.md sections 2 and 5; the bytes and the
results are the host's). -/
def Obligations.NoCommandChangesTableOrHostSide : Prop :=
  ∀ (i : Instr) (s t : State), exec i s = .next t →
    (∀ k : Byte, t.tableRead k = s.tableRead k) ∧ t.table = s.table ∧ t.pending = s.pending ∧
    t.commandIndex = s.commandIndex ∧ s.results <+: t.results

/-- R45: CALC, ACCUM and GET deliver exactly one value, INIT and RESET none; results stand in the
order of the commands; on an engine whose registers fit its WIDTH every value delivered has bits
`W_MAX-1` down to `w` equal to 0. -/
def Obligations.EachCommandDeliversItsResults : Prop :=
  ∀ (i : Instr) (s t : State), exec i s = .next t →
    ∃ vs, t.results = s.results ++ vs ∧ vs.length = i.resultCount ∧
      (RegistersFit s → ∀ v ∈ vs, ∀ k, s.w ≤ k → v.getLsbD k = false)

/-! ## INIT (40_configuration.md) -/

/-- R50: INIT with a legal WIDTH completes, on a configured engine and on an unconfigured one. All
seven registers take the values of the frame, the value fields and ACCUMULATE reduced modulo `2^n`
with `n` the frame's WIDTH; nothing is returned and nothing else changes. -/
def Obligations.InitLoadsTheRecordTruncatedToItsWidth : Prop :=
  (∀ (p : Params) (s : State), p.width.toNat ∈ Config.widths →
    ∃ t, exec (.init p) s = .next t ∧
      t.params.width = p.width ∧
      t.params.inputReflected = p.inputReflected ∧
      t.params.resultReflected = p.resultReflected ∧
      t.params.polynomial.toNat = p.polynomial.toNat % 2 ^ p.width.toNat ∧
      t.params.initialValue.toNat = p.initialValue.toNat % 2 ^ p.width.toNat ∧
      t.params.finalXorValue.toNat = p.finalXorValue.toNat % 2 ^ p.width.toNat ∧
      t.accumulate.toNat = p.initialValue.toNat % 2 ^ p.width.toNat ∧
      t.configured = true ∧ t.results = s.results ∧ t.table = s.table ∧
      (∀ i : Byte, t.tableRead i = s.tableRead i) ∧
      t.pending = s.pending ∧ t.commandIndex = s.commandIndex) ∧
  (∀ p, (encode (.init p)).head? = some 0x01)

/-- No earlier content of any register survives INIT (40_configuration.md section INIT): two machines
that differ in registers only, or of which one is unconfigured, are the same after it. The value of a
register container before the first INIT (assumption 1) therefore reaches nothing. -/
def Obligations.InitForgetsEveryRegister : Prop :=
  ∀ (p : Params) (s : State) (q : Params) (a : Word) (c : Bool),
    exec (.init p) { s with params := q, accumulate := a, configured := c } = exec (.init p) s

/-- An INIT whose WIDTH is no member of `WIDTHS` has no behaviour and is refused by name
(30_encoding.md section 5). -/
def Obligations.InitWithIllegalWidthIsRefused : Prop :=
  ∀ (p : Params) (s : State), p.width.toNat ∉ Config.widths →
    exec (.init p) s = .refused (.illegalWidth p.width)

/-! ## CALC (43_oneshot.md) -/

/-- R70: CALC has opcode byte 0x02. On a configured engine it completes for every data operand. With `F` the fold of the data
from INITIAL_VALUE it returns `F XOR FX`, or `reverse_bits(F, w) XOR FX` in the output-only
configuration, and changes no register, no table entry and nothing else. -/
def Obligations.CalcReturnsTheChecksumAndWritesNoRegister : Prop :=
  ∀ data : List Byte, (encode (.calculate data)).head? = some 0x02 ∧
  ∀ s : State, s.configured = true →
    ∃ t v, exec (.calculate data) s = .next t ∧ t = { s with results := s.results ++ [v] } ∧
      (∀ i : Byte, t.tableRead i = s.tableRead i) ∧
      (¬ outputOnly s.params →
        v = foldBuffer s.params s.tableRead s.params.initialValue data ^^^ s.params.finalXorValue) ∧
      (outputOnly s.params →
        v = reverseBits (foldBuffer s.params s.tableRead s.params.initialValue data) s.w ^^^
          s.params.finalXorValue)

/-- CALC neither reads nor writes ACCUMULATE (43_oneshot.md): with any other value there the outcome
is the same and that value stands afterwards. -/
def Obligations.CalcIsIndependentOfAccumulate : Prop :=
  ∀ (data : List Byte) (s : State) (a : Word),
    exec (.calculate data) { s with accumulate := a } =
      mapNext (fun t => { t with accumulate := a }) (exec (.calculate data) s)

/-- An accumulation interleaved with CALC commands proceeds as if they were absent (43_oneshot.md):
leaving the CALCs out of a command sequence leaves the same registers at its end, and the remaining
results in their order. -/
def Obligations.AccumulationProceedsAsIfCalcsWereAbsent : Prop :=
  ∀ (is : List Instr) (s t : State), runCommands is s = .next t →
    ∃ t', runCommands (is.filter fun i => !i.isCalc) s = .next t' ∧
      t'.params = t.params ∧ t'.accumulate = t.accumulate ∧ t'.results.Sublist t.results ∧
      t'.results.length + (is.filter Instr.isCalc).length = t.results.length

/-! ## ACCUM (44_incremental.md) -/

/-- R73: ACCUM has opcode byte 0x03. On a configured engine it completes for every data operand. With `F` the fold of the data
from ACCUMULATE it puts `F` into ACCUMULATE, or `reverse_bits(F, w)` in the output-only
configuration, returns the new ACCUMULATE XOR FX, and changes nothing else. -/
def Obligations.AccumKeepsTheFoldAndReturnsItXored : Prop :=
  ∀ data : List Byte, (encode (.accum data)).head? = some 0x03 ∧
  ∀ s : State, s.configured = true →
    ∃ t a, exec (.accum data) s = .next t ∧
      t = { s with accumulate := a, results := s.results ++ [a ^^^ s.params.finalXorValue] } ∧
      (∀ i : Byte, t.tableRead i = s.tableRead i) ∧
      (¬ outputOnly s.params → a = foldBuffer s.params s.tableRead s.accumulate data) ∧
      (outputOnly s.params →
        a = reverseBits (foldBuffer s.params s.tableRead s.accumulate data) s.w)

/-- R89: the value an ACCUM returns is the new ACCUMULATE XOR FINAL_XOR_VALUE, and a GET issued
directly after returns the same value. -/
def Obligations.AccumReturnsWhatTheNextGetReturns : Prop :=
  ∀ (data : List Byte) (s t : State), exec (.accum data) s = .next t →
    t.results = s.results ++ [t.accumulate ^^^ t.params.finalXorValue] ∧
    ∃ u, exec .get t = .next u ∧ u.results = t.results ++ [t.accumulate ^^^ t.params.finalXorValue]

/-! ## RESET and GET (44_incremental.md) -/

/-- R76: on a configured engine RESET completes, sets ACCUMULATE to INITIAL_VALUE and does nothing
else; RESET twice is the same as once, and RESET where ACCUMULATE already equals INITIAL_VALUE changes
nothing. -/
def Obligations.ResetRestoresTheInitialValue : Prop :=
  encode .reset = [0x04] ∧
  ∀ s : State, s.configured = true →
    ∃ t, exec .reset s = .next t ∧ t = { s with accumulate := s.params.initialValue } ∧
      (∀ i : Byte, t.tableRead i = s.tableRead i) ∧ exec .reset t = .next t ∧
      (s.accumulate = s.params.initialValue → t = s)

/-- R77: on a configured engine GET completes, returns ACCUMULATE as it was XOR FINAL_XOR_VALUE, with
no reflection in any configuration, sets ACCUMULATE to INITIAL_VALUE, and changes nothing else. -/
def Obligations.GetReturnsTheChecksumAndResets : Prop :=
  encode .get = [0x05] ∧
  ∀ s : State, s.configured = true →
    ∃ t, exec .get s = .next t ∧
      t = { s with
        accumulate := s.params.initialValue
        results := s.results ++ [s.accumulate ^^^ s.params.finalXorValue] } ∧
      (∀ i : Byte, t.tableRead i = s.tableRead i)

/-- GET directly after INIT, RESET or GET returns IV XOR FX in every configuration
(44_incremental.md, corner cases of GET). -/
def Obligations.GetOnAFreshEngineReturnsInitialXorFinal : Prop :=
  ∀ (i : Instr) (s t : State), exec i s = .next t → (i.isInit = true ∨ i = .reset ∨ i = .get) →
    ∃ u, exec .get t = .next u ∧
      u.results = t.results ++ [t.params.initialValue ^^^ t.params.finalXorValue]

/-! ## The bit_reflection_unit (41_reflection_unit.md) -/

/-- R54: bit `n-1-i` of `reverse_bits(value, n)` is bit `i` of `value`, every bit at position `n` or
above is 0, and bits of `value` at positions `n` and above have no influence. -/
def Obligations.ReverseBitsClosedForm : Prop :=
  ∀ (v : Word) (n : Nat), n ≤ 64 →
    (∀ i < n, (reverseBits v n).toNat / 2 ^ (n - 1 - i) % 2 = v.toNat / 2 ^ i % 2) ∧
    (∀ i, n ≤ i → (reverseBits v n).toNat / 2 ^ i % 2 = 0) ∧
    reverseBits v n = reverseBits (trunc n v) n

/-- R55 (a) to (f): involution; zero and all ones; the empty reversal; XOR is preserved; a right shift
before the reversal is a left shift after it; the width matters. -/
def Obligations.ReverseBitsLaws : Prop :=
  ∀ n, n ≤ 64 →
    (∀ v, fits n v → reverseBits (reverseBits v n) n = v) ∧
    reverseBits 0 n = 0 ∧
    reverseBits (BitVec.ofNat 64 (2 ^ n - 1)) n = BitVec.ofNat 64 (2 ^ n - 1) ∧
    (∀ v, reverseBits v 0 = 0) ∧
    (∀ a b, reverseBits (a ^^^ b) n = reverseBits a n ^^^ reverseBits b n) ∧
    (∀ v k, fits n v → k ≤ n → reverseBits (v >>> k) n = trunc n (reverseBits v n <<< k)) ∧
    reverseBits 0x01 8 = 0x80 ∧ reverseBits 0x01 16 = 0x8000

/-! ## The datapath (42_datapath.md) -/

/-- R62: `fold_A(r, b)` in unsigned arithmetic, with one table read at `(r AND 0xFF) XOR b`; the
result is a w-bit value; the rule's worked example. -/
def Obligations.FoldAShiftsRightAndIndexesTheLowByte : Prop :=
  (∀ (w : Nat) (read : Byte → Word) (r : Word) (b : Byte), w ∈ Config.widths → fits w r →
    (r.toNat % 256) ^^^ b.toNat < 256 ∧
    (foldA w read r b).toNat = (r.toNat / 2 ^ 8) ^^^
      ((read (BitVec.ofNat 8 ((r.toNat % 256) ^^^ b.toNat))).toNat % 2 ^ w) ∧
    fits w (foldA w read r b)) ∧
  (∀ read : Byte → Word, read 0x97 = 0x6E6B06E7 → foldA 32 read 0xFFFFFFFF 0x68 = 0x6E94F918)

/-- R64: `fold_B(r, b)` in unsigned arithmetic, with `x` the byte, reversed over 8 bits when IR = 1,
`t` the register with `x` XORed into its top byte, and one table read at the top byte of `t`, which
is below 256 before the AND with 0xFF; the rule's worked example. -/
def Obligations.FoldBShiftsLeftAndIndexesTheTopByte : Prop :=
  (∀ (w : Nat) (ir : Bool) (read : Byte → Word) (r : Word) (b : Byte), w ∈ Config.widths → fits w r →
    ∃ x t : Nat, x = (if ir then (reverseBits (b.setWidth 64) 8).toNat else b.toNat) ∧
      t = r.toNat ^^^ (x * 2 ^ (w - 8)) ∧ x * 2 ^ (w - 8) < 2 ^ w ∧ t / 2 ^ (w - 8) < 256 ∧
      (foldB w ir read r b).toNat = (t * 2 ^ 8 % 2 ^ w) ^^^
        ((read (BitVec.ofNat 8 (t / 2 ^ (w - 8)))).toNat % 2 ^ w) ∧
      fits w (foldB w ir read r b)) ∧
  (∀ read : Byte → Word, read 0x31 = 0x2672 → foldB 16 false read 0x0000 0x31 = 0x2672)

/-- R60: at w = 8 a shift by 8 empties the register and a shift by `w - 8` leaves it, so
`fold_A(r, b) = T(r XOR b)` and `fold_B(r, b) = T(r XOR x)`. -/
def Obligations.FoldsAtWidthEight : Prop :=
  ∀ (ir : Bool) (read : Byte → Word) (r : Word) (b : Byte), fits 8 r →
    r >>> 8 = 0 ∧ trunc 8 (r <<< 8) = 0 ∧ r >>> (8 - 8) = r ∧
    (∀ x : Word, x <<< (8 - 8) = x) ∧
    foldA 8 read r b = trunc 8 (read (r.setWidth 8 ^^^ b)) ∧
    foldB 8 ir read r b =
      trunc 8 (read (r.setWidth 8 ^^^ (if ir then (reverseBits (b.setWidth 64) 8).setWidth 8 else b)))

/-- An equivalent form of `fold_B` (42_datapath.md section 4, corner case (d)): the low bits of
`x << (w-8)` are 0, so it is `trunc_w(r << 8) XOR T((r >> (w-8)) XOR x)`. -/
def Obligations.FoldBEquivalentForm : Prop :=
  ∀ (w : Nat) (ir : Bool) (read : Byte → Word) (r : Word) (b : Byte), w ∈ Config.widths → fits w r →
    foldB w ir read r b = trunc w (r <<< 8) ^^^
      trunc w (read ((r >>> (w - 8)).setWidth 8 ^^^ inputByte ir b))

/-- The branch is selected once per command, Branch A when both flags are 1 and Branch B otherwise,
and the buffer is folded with that branch's fold, in index order, every byte, also when there is none
(42_datapath.md sections 2 and 5). -/
def Obligations.BufferIsFoldedInOrderByTheSelectedBranch : Prop :=
  ∀ (p : Params) (read : Byte → Word) (r : Word) (data : List Byte),
    foldBuffer p read r data =
      (if p.inputReflected = true ∧ p.resultReflected = true then
        data.foldl (foldA p.width.toNat read) r
      else data.foldl (foldB p.width.toNat p.inputReflected read) r)

/-- R67: the output stage reverses the register over w bits exactly when IR = 0 and RR = 1;
FINAL_XOR_VALUE enters the visible value only; both values are w-bit values; the stage runs once per
command, also with no data: CALC returns the visible value and drops the stored one, ACCUM returns
the visible value and keeps the stored one; the rule's worked example. -/
def Obligations.OutputStageReversesOnlyInOutputOnly : Prop :=
  (∀ (p : Params) (r : Word),
    (outputStage p r).stored = (if p.inputReflected = true ∧ p.resultReflected = true then r
      else if p.resultReflected = true then reverseBits r p.width.toNat else r) ∧
    (outputStage p r).visible = (outputStage p r).stored ^^^ p.finalXorValue ∧
    (p.width.toNat ∈ Config.widths → fits p.width.toNat r → fits p.width.toNat p.finalXorValue →
      fits p.width.toNat (outputStage p r).stored ∧ fits p.width.toNat (outputStage p r).visible)) ∧
  (∀ p : Params, p.width = 16 → p.inputReflected = false → p.resultReflected = true →
    p.finalXorValue = 0x0001 → outputStage p 0xD999 = ⟨0x999B, 0x999A⟩) ∧
  (∀ (data : List Byte) (s : State), s.configured = true →
    (∃ t, exec (.calculate data) s = .next t ∧ t.accumulate = s.accumulate ∧ t.results = s.results ++
      [(outputStage s.params
        (foldBuffer s.params s.tableRead s.params.initialValue data)).visible]) ∧
    ∃ t, exec (.accum data) s = .next t ∧
      t.accumulate = (outputStage s.params (foldBuffer s.params s.tableRead s.accumulate data)).stored ∧
      t.results = s.results ++
        [(outputStage s.params (foldBuffer s.params s.tableRead s.accumulate data)).visible])

/-! ## The laws (45_properties.md) -/

/-- R80: folding a concatenation is folding its parts one after the other. A sequence of ACCUM
commands leaves in ACCUMULATE the fold of the concatenated data, where the configuration is not
output-only, and in output-only a value with a reversal after every chunk. -/
def Obligations.AccumsComposeOverConcatenation : Prop :=
  (∀ (p : Params) (read : Byte → Word) (x : Word) (d1 d2 : List Byte),
    foldBuffer p read x (d1 ++ d2) = foldBuffer p read (foldBuffer p read x d1) d2 ∧
    foldBuffer p read x [] = x) ∧
  (∀ (chunks : List (List Byte)) (s : State), s.configured = true →
    ∃ t, runCommands (chunks.map .accum) s = .next t ∧
      (¬ outputOnly s.params →
        t.accumulate = foldBuffer s.params s.tableRead s.accumulate chunks.flatten) ∧
      (outputOnly s.params → t.accumulate = chunks.foldl
        (fun a d => reverseBits (foldBuffer s.params s.tableRead a d) s.w) s.accumulate))

/-- Chunking equivalence (45_properties.md section 2, source property 1, law (a)): on a fresh engine,
outside the output-only configuration, for every split of the data, empty chunks included, the chunks
given to ACCUM one by one and then GET return what one CALC of the whole data returns; with at least
one chunk the last ACCUM already returns it. -/
def Obligations.ChunkingEquivalence : Prop :=
  ∀ (chunks : List (List Byte)) (s : State), s.configured = true → Fresh s → ¬ outputOnly s.params →
    ∃ v u t, exec (.calculate chunks.flatten) s = .next { s with results := s.results ++ [v] } ∧
      runCommands (chunks.map .accum) s = .next u ∧
      (chunks ≠ [] → u.results.getLast? = some v) ∧
      exec .get u = .next t ∧ t = { s with results := u.results ++ [v] }

/-- Chunking in the output-only configuration (45_properties.md section 2, source property 1, law
(b)): one ACCUM over all the data and then GET return what CALC returns; with no chunk the two agree
exactly when `rev(IV) = IV`; and two chunks do not in general. -/
def Obligations.ChunkingInOutputOnly : Prop :=
  (∀ (data : List Byte) (s : State), s.configured = true → Fresh s → outputOnly s.params →
    ∃ v u t, exec (.calculate data) s = .next { s with results := s.results ++ [v] } ∧
      exec (.accum data) s = .next u ∧ u.results = s.results ++ [v] ∧
      exec .get u = .next t ∧ t.results = u.results ++ [v]) ∧
  (∀ s : State, s.configured = true → Fresh s → outputOnly s.params →
    ((∃ v t u, exec (.calculate []) s = .next t ∧ t.results = s.results ++ [v] ∧
      exec .get s = .next u ∧ u.results = s.results ++ [v]) ↔
      reverseBits s.params.initialValue s.w = s.params.initialValue)) ∧
  (∃ (d1 d2 : List Byte) (s t u : State), s.configured = true ∧ RegistersFit s ∧ Fresh s ∧
    outputOnly s.params ∧ exec (.calculate (d1 ++ d2)) s = .next t ∧
    runCommands [.accum d1, .accum d2, .get] s = .next u ∧
    t.results.getLast? ≠ u.results.getLast?)

/-- R82: RESET leaves the engine as INIT with the same parameters does, so every later command behaves
as after INIT; RESET twice is RESET; GET leaves the registers as RESET does; GET after INIT returns
IV XOR FX. All four configurations. -/
def Obligations.ResetIsAFreshStart : Prop :=
  (∀ s : State, s.configured = true → RegistersFit s →
    ∃ t, exec .reset s = .next t ∧ exec (.init s.params) s = .next t ∧ exec .reset t = .next t ∧
      (∀ is, runCommands (.reset :: is) s = runCommands (.init s.params :: is) s) ∧
      ∃ v, exec .get s = .next { t with results := t.results ++ [v] }) ∧
  (∀ (p : Params) (s t : State), exec (.init p) s = .next t →
    ∃ u, exec .get t = .next u ∧ u.accumulate = t.params.initialValue ∧
      u.results = s.results ++ [trunc p.width.toNat p.initialValue ^^^
        trunc p.width.toNat p.finalXorValue])

/-- R83: with no data CALC returns IV XOR FX and ACCUM leaves ACCUMULATE unchanged and returns ACC XOR
FX, except in output-only, where CALC returns `rev(IV) XOR FX`, which equals IV XOR FX exactly when
`rev(IV) = IV`, and ACCUM replaces ACCUMULATE by its reversal. -/
def Obligations.ZeroLengthData : Prop :=
  ∀ s : State, s.configured = true →
    (¬ outputOnly s.params →
      exec (.calculate []) s = .next { s with
        results := s.results ++ [s.params.initialValue ^^^ s.params.finalXorValue] } ∧
      exec (.accum []) s = .next { s with
        results := s.results ++ [s.accumulate ^^^ s.params.finalXorValue] }) ∧
    (outputOnly s.params →
      exec (.calculate []) s = .next { s with
        results := s.results ++
          [reverseBits s.params.initialValue s.w ^^^ s.params.finalXorValue] } ∧
      (reverseBits s.params.initialValue s.w ^^^ s.params.finalXorValue =
          s.params.initialValue ^^^ s.params.finalXorValue ↔
        reverseBits s.params.initialValue s.w = s.params.initialValue) ∧
      exec (.accum []) s = .next { s with
        accumulate := reverseBits s.accumulate s.w
        results := s.results ++ [reverseBits s.accumulate s.w ^^^ s.params.finalXorValue] })

/-- In output-only two ACCUM commands with no data restore the register (44_incremental.md, corner
cases of ACCUM, (b)), on an engine whose registers fit its WIDTH. -/
def Obligations.TwoEmptyAccumsRestoreTheRegister : Prop :=
  ∀ s : State, s.configured = true → RegistersFit s → outputOnly s.params →
    ∃ t, runCommands [.accum [], .accum []] s = .next t ∧ t.accumulate = s.accumulate

/-- R84: Branch B with explicit reflection and a table `TB` is Branch A with the table
`TA(i) = reverse_bits(TB(reverse_bits(i, 8)), w)`, for one byte and for a buffer; the results agree
from the same initial value when it is palindromic, and otherwise when Branch B starts from the
reversed one; with one and the same table in both branches they differ in general. -/
def Obligations.BranchEquivalence : Prop :=
  (∀ (w : Nat) (tb ta : Byte → Word), w ∈ Config.widths →
    (∀ i, ta i = reverseBits (tb (reverseByte i)) w) →
    (∀ (r : Word) (b : Byte), fits w r →
      reverseBits (foldB w true tb r b) w = foldA w ta (reverseBits r w) b) ∧
    (∀ (x : Word) (data : List Byte), fits w x →
      reverseBits (data.foldl (foldB w true tb) x) w = data.foldl (foldA w ta) (reverseBits x w)) ∧
    (∀ (iv fx : Word) (data : List Byte), fits w iv → reverseBits iv w = iv →
      reverseBits (data.foldl (foldB w true tb) iv) w ^^^ fx = data.foldl (foldA w ta) iv ^^^ fx) ∧
    (∀ (iv fx : Word) (data : List Byte), fits w iv →
      reverseBits (data.foldl (foldB w true tb) (reverseBits iv w)) w ^^^ fx =
        data.foldl (foldA w ta) iv ^^^ fx)) ∧
  (∃ (w : Nat) (table : Byte → Word) (r : Word) (b : Byte), w ∈ Config.widths ∧ fits w r ∧
    reverseBits (foldB w true table r b) w ≠ foldA w table (reverseBits r w) b)

/-- Every step keeps the invariant: the table memory stays in canonical form, WIDTH stays legal and
POLYNOMIAL, INITIAL_VALUE, FINAL_XOR_VALUE and ACCUMULATE hold w-bit values (10_state.md section 2),
from every state that meets it. The canonical form is the model's own (assumption 4). -/
def Obligations.EveryStepKeepsTheInvariant : Prop :=
  ∀ s t : State, Invariant s → step s = .next t → Invariant t

/-- The state after power-on reset meets the invariant: the table memory lists nothing, and the
clause on the registers asks nothing of an unconfigured engine (assumption 2). -/
def Obligations.ResetStateMeetsTheInvariant : Prop := Invariant State.reset

/-- R87: after every command ACCUMULATE and every value the command returned are below `2^w`, every
table index is below 256, and neither the bits at positions w and above of a table entry nor those of
an INIT value field reach any register or result. -/
def Obligations.WidthBoundaryMasking : Prop :=
  (∀ (i : Instr) (s t : State), Invariant s → exec i s = .next t →
    t.accumulate.toNat < 2 ^ t.w ∧
    ∀ v ∈ t.results.drop s.results.length, v.toNat < 2 ^ t.w) ∧
  (∀ (i : Instr) (s : State) (m : Memory),
    (∀ k : Byte, trunc s.w (Memory.read m k.toNat) = trunc s.w (s.tableRead k)) →
    exec i (s.setTable m) = mapNext (fun t => t.setTable m) (exec i s)) ∧
  (∀ (p q : Params) (s : State), q.width = p.width → q.inputReflected = p.inputReflected →
    q.resultReflected = p.resultReflected →
    trunc p.width.toNat q.polynomial = trunc p.width.toNat p.polynomial →
    trunc p.width.toNat q.initialValue = trunc p.width.toNat p.initialValue →
    trunc p.width.toNat q.finalXorValue = trunc p.width.toNat p.finalXorValue →
    exec (.init q) s = exec (.init p) s) ∧
  (∀ (w : Nat) (r t : Word) (b : Byte), (indexA r b).toNat < 256 ∧ (indexB w t).toNat < 256)

/-- R88: FINAL_XOR_VALUE is in no value written to ACCUMULATE: with another value there, a command
sequence without INIT leaves the same ACCUMULATE and the same other registers, and every result
changes by the XOR of the two values and nothing else. An INIT that differs in its final XOR field
only leaves an engine that differs in FINAL_XOR_VALUE only. -/
def Obligations.FinalXorChangesResultsOnly : Prop :=
  (∀ (is : List Instr) (s t : State) (x : Word), (∀ i ∈ is, i.isInit = false) →
    runCommands is s = .next t →
    ∃ vs, t.results = s.results ++ vs ∧
      runCommands is (s.setFinalXor x) = .next { t.setFinalXor x with
        results := s.results ++ vs.map fun v => v ^^^ s.params.finalXorValue ^^^ x }) ∧
  (∀ (p : Params) (s t : State) (x : Word), exec (.init p) s = .next t →
    exec (.init { p with finalXorValue := x }) s = .next (t.setFinalXor (trunc p.width.toNat x)))

/-- R90: two engines that differ only in POLYNOMIAL return the same results, hold the same ACCUMULATE
and are refused alike, for every command sequence. -/
def Obligations.PolynomialHasNoEffect : Prop :=
  ∀ (is : List Instr) (s : State) (v : Word), ∃ v', runCommands is (s.setPolynomial v) =
    mapNext (fun t => t.setPolynomial v') (runCommands is s)

/-! ## The table memory (20_memory.md) -/

/-- The host's supply of 256 entries: entry `i` reads back as the value supplied for it, the canonical
form, which is the model's own (assumption 4), is kept, and no register changes
(70_reset_and_hazards.md section 2). -/
def Obligations.SuppliedTableReadsBack : Prop :=
  ∀ (s : State) (entries : List Word), Memory.wf s.table → entries.length = 256 →
    Memory.wf (s.supplyTable entries).table ∧
    (∀ i : Byte, entries[i.toNat]? = some ((s.supplyTable entries).tableRead i)) ∧
    (s.supplyTable entries).params = s.params ∧
    (s.supplyTable entries).accumulate = s.accumulate ∧
    (s.supplyTable entries).configured = s.configured

/-- Equal table memories are equal data: two memories in canonical form that read alike at every index
are the same list (the model's own representation, assumption 4). -/
def Obligations.TablesThatReadAlikeAreEqual : Prop :=
  ∀ m m' : Memory, Memory.wf m → Memory.wf m' →
    (∀ i : Byte, Memory.read m i.toNat = Memory.read m' i.toNat) → m = m'

/-! ## The source's worked scenarios (95_test_vectors.md V1 and V2) -/

/-- With the CRC-32 record and the thirteen table entries the trace of V1 reads, CALC of "hello
world!!!" returns 0x2416A280; "hello ", "world" and "!!!" given to ACCUM on a fresh engine return
0xED81F9F6, 0x0D4A1185 and 0x2416A280, and GET then returns 0x2416A280. -/
def Obligations.HelloWorldHasItsCrc32 : Prop :=
  ∀ s : State, s.configured = true →
    s.params = ⟨32, true, true, 0x04C11DB7, 0xFFFFFFFF, 0xFFFFFFFF⟩ → s.accumulate = 0xFFFFFFFF →
    s.tableRead 0x97 = 0x6E6B06E7 → s.tableRead 0x7D = 0x2EB40D81 → s.tableRead 0x14 = 0x1ADAD47D →
    s.tableRead 0x88 = 0xE3630B12 → s.tableRead 0x73 = 0xC90C2086 → s.tableRead 0x59 = 0x12B7E950 →
    s.tableRead 0x7E = 0xB7BD5C3B → s.tableRead 0x52 = 0x856530D8 → s.tableRead 0xE1 = 0xD70DD2EE →
    s.tableRead 0x53 = 0xF262004E → s.tableRead 0x5B = 0xFCB9887C → s.tableRead 0xB3 = 0x5268E236 →
    s.tableRead 0x2A = 0xDBBBC9D6 →
    (∃ t, exec (.calculate [0x68, 0x65, 0x6C, 0x6C, 0x6F, 0x20, 0x77, 0x6F, 0x72, 0x6C, 0x64,
        0x21, 0x21, 0x21]) s = .next t ∧ t.results = s.results ++ [0x2416A280]) ∧
    (∃ t, runCommands [.accum [0x68, 0x65, 0x6C, 0x6C, 0x6F, 0x20],
        .accum [0x77, 0x6F, 0x72, 0x6C, 0x64], .accum [0x21, 0x21, 0x21], .get] s = .next t ∧
      t.results = s.results ++ [0xED81F9F6, 0x0D4A1185, 0x2416A280, 0x2416A280] ∧
      t.accumulate = 0xFFFFFFFF)
end

