-- ==== Sys2Proof/Laws/Word.lean ====
section
/-! SUPPORT. Lemmas about truncation, w-bit values, the bit_reflection_unit's loop and the byte
serialisation of numbers. -/

namespace Sys2Proof.Machine

/-! ## Truncation and w-bit values -/

/-- Truncation is the remainder modulo `2^n` (R9). -/
theorem toNat_trunc (n : Nat) (v : Word) : (trunc n v).toNat = v.toNat % 2 ^ n := by
  have h : v.toNat % 2 ^ n < 2 ^ 64 := lt_of_le_of_lt (Nat.mod_le _ _) v.isLt
  rw [trunc, BitVec.toNat_setWidth, BitVec.toNat_setWidth, Nat.mod_eq_of_lt h]

@[simp] theorem getLsbD_trunc (n : Nat) (v : Word) (i : Nat) :
    (trunc n v).getLsbD i = (decide (i < n) && v.getLsbD i) := by
  rw [← BitVec.testBit_toNat, toNat_trunc, Nat.testBit_mod_two_pow, BitVec.testBit_toNat]

theorem trunc_xor (n : Nat) (a b : Word) : trunc n (a ^^^ b) = trunc n a ^^^ trunc n b := by
  apply BitVec.eq_of_getLsbD_eq
  intro i _
  simp [Bool.and_xor_distrib_left]

theorem fits_trunc (n : Nat) (v : Word) : fits n (trunc n v) := by
  rw [fits, toNat_trunc]
  exact Nat.mod_lt _ (Nat.two_pow_pos n)

theorem trunc_of_fits {n : Nat} {v : Word} (h : fits n v) : trunc n v = v := by
  apply BitVec.eq_of_toNat_eq
  rw [toNat_trunc, Nat.mod_eq_of_lt h]

@[simp] theorem trunc_trunc (n : Nat) (v : Word) : trunc n (trunc n v) = trunc n v :=
  trunc_of_fits (fits_trunc n v)

theorem fits_xor {n : Nat} {a b : Word} (ha : fits n a) (hb : fits n b) : fits n (a ^^^ b) := by
  rw [fits, BitVec.toNat_xor]
  exact Nat.xor_lt_two_pow ha hb

theorem fits_shiftRight {n : Nat} {a : Word} (k : Nat) (ha : fits n a) : fits n (a >>> k) := by
  rw [fits, BitVec.toNat_ushiftRight]
  exact lt_of_le_of_lt (by rw [Nat.shiftRight_eq_div_pow]; exact Nat.div_le_self _ _) ha

/-- A w-bit value has no bit at position w or above (R8). -/
theorem getLsbD_of_fits {n : Nat} {v : Word} (h : fits n v) {i : Nat} (hi : n ≤ i) :
    v.getLsbD i = false := by
  have hv := getLsbD_trunc n v i
  rw [trunc_of_fits h] at hv
  simpa [Nat.not_lt.mpr hi] using hv

theorem fits_of_getLsbD {n : Nat} {v : Word} (h : ∀ i, n ≤ i → v.getLsbD i = false) : fits n v := by
  have hv : trunc n v = v := by
    apply BitVec.eq_of_getLsbD_eq
    intro i _
    by_cases hi : i < n <;> simp [hi]
    exact h i (by omega)
  rw [← hv]
  exact fits_trunc n v

/-- A legal WIDTH is a multiple of 8 from 8 to 64 (R7). -/
theorem width_bounds {w : Nat} (h : w ∈ Config.widths) : 8 ≤ w ∧ w ≤ 64 ∧ w % 8 = 0 := by
  simp [Config.widths] at h
  omega

/-! ## The loop of the bit_reflection_unit -/

/-- What the loop of R53 leaves after `n` turns: the low `n` bits of the value in reverse order below
the bits the result had before. -/
theorem getLsbD_reverseLoop (n : Nat) (out v : Word) (i : Nat) (hi : i < 64) :
    (reverseLoop n out v).getLsbD i =
      if i < n then v.getLsbD (n - 1 - i) else out.getLsbD (i - n) := by
  induction n generalizing out v with
  | zero => simp [reverseLoop]
  | succ n ih =>
    rw [reverseLoop, ih]
    have hone : ∀ k, (1 : Word).getLsbD k = decide (k = 0) := by
      intro k; simp [BitVec.getLsbD_one]
    by_cases h : i < n
    · have h1 : i < n + 1 := by omega
      simp only [h, h1, if_true, BitVec.getLsbD_ushiftRight]
      congr 1; omega
    · by_cases h1 : i = n
      · subst h1
        simp
      · have h2 : ¬ i < n + 1 := by omega
        have h3 : i - n ≠ 0 := by omega
        have h4 : i - n < 64 := by omega
        have h5 : i - n - 1 = i - (n + 1) := by omega
        have h6 : ¬ i - n < 1 := by omega
        simp only [h, h2, if_false, BitVec.getLsbD_or, BitVec.getLsbD_shiftLeft, BitVec.getLsbD_and,
          hone, h3, decide_false, Bool.and_false, Bool.or_false, h4, decide_true, Bool.true_and,
          h5, h6, Bool.not_false]

/-! ## Numbers as bytes, least significant first (R39) -/

@[simp] theorem length_leBytes (n v : Nat) : (leBytes n v).length = n := by
  induction n generalizing v with
  | zero => rfl
  | succ n ih => simp [leBytes, ih]

theorem leNat_leBytes (n v : Nat) : leNat (leBytes n v) = v % 256 ^ n := by
  induction n generalizing v with
  | zero => simp [leBytes, leNat, Nat.mod_one]
  | succ n ih =>
    have h256 : 2 ^ 8 = 256 := rfl
    rw [leBytes, leNat, ih, BitVec.toNat_ofNat, h256, pow_succ', Nat.mod_mul]

theorem leNat_lt (bs : List Byte) : leNat bs < 256 ^ bs.length := by
  induction bs with
  | nil => simp [leNat]
  | cons b bs ih =>
    have hb := b.isLt
    rw [leNat, List.length_cons, pow_succ]
    omega

theorem leBytes_leNat (bs : List Byte) : leBytes bs.length (leNat bs) = bs := by
  induction bs with
  | nil => rfl
  | cons b bs ih =>
    have hb := b.isLt
    have h1 : BitVec.ofNat 8 (b.toNat + 256 * leNat bs) = b := by
      apply BitVec.eq_of_toNat_eq
      rw [BitVec.toNat_ofNat]
      omega
    have h2 : (b.toNat + 256 * leNat bs) / 256 = leNat bs := by omega
    rw [List.length_cons, leNat, leBytes, h1, h2, ih]

end Sys2Proof.Machine
end

