-- ==== Sys2Proof/Laws/Datapath.lean ====
section
/-! SUPPORT. The datapath functions: a buffer is a left fold, and a fold of a w-bit register is a
w-bit value. -/

namespace Sys2Proof.Machine

theorem fits_entry (w : Nat) (read : Byte → Word) (i : Byte) : fits w (entry w read i) :=
  fits_trunc w _

theorem fits_foldA {w : Nat} {r : Word} (read : Byte → Word) (b : Byte) (h : fits w r) :
    fits w (foldA w read r b) :=
  fits_xor (fits_shiftRight 8 h) (fits_entry w read _)

/-- The left-shifting fold truncates, so its result is a w-bit value whatever the register held. -/
theorem fits_foldB (w : Nat) (ir : Bool) (read : Byte → Word) (r : Word) (b : Byte) :
    fits w (foldB w ir read r b) :=
  fits_xor (fits_trunc w _) (fits_entry w read _)

theorem fits_foldByte {p : Params} {r : Word} (read : Byte → Word) (b : Byte)
    (h : fits p.width.toNat r) : fits p.width.toNat (foldByte p read r b) := by
  unfold foldByte
  split
  · exact fits_foldA read b h
  · exact fits_foldB _ _ read r b

theorem fits_foldBuffer {p : Params} {r : Word} (read : Byte → Word) (data : List Byte)
    (h : fits p.width.toNat r) : fits p.width.toNat (foldBuffer p read r data) := by
  unfold foldBuffer
  induction data generalizing r with
  | nil => exact h
  | cons b data ih => exact ih (fits_foldByte read b h)

theorem fits_storedValue {p : Params} {r : Word} (h : fits p.width.toNat r) :
    fits p.width.toNat (storedValue p r) := by
  unfold storedValue
  split
  · refine fits_of_getLsbD fun i hi => ?_
    by_cases h64 : i < 64
    · rw [reverseBits, getLsbD_reverseLoop _ _ _ _ h64, if_neg (by omega)]
      simp
    · exact BitVec.getLsbD_of_ge _ _ (by omega)
  · exact h

@[simp] theorem outputStage_stored (p : Params) (r : Word) :
    (outputStage p r).stored = storedValue p r := rfl

@[simp] theorem outputStage_visible (p : Params) (r : Word) :
    (outputStage p r).visible = storedValue p r ^^^ p.finalXorValue := rfl

/-- The kept and the visible value of one CALC or ACCUM on w-bit registers are w-bit values. -/
theorem fits_process {s : State} {r : Word} (data : List Byte) (hr : fits s.w r)
    (hx : fits s.w s.params.finalXorValue) :
    fits s.w (s.process r data).stored ∧ fits s.w (s.process r data).visible := by
  have h := fits_storedValue (fits_foldBuffer s.tableRead data hr)
  exact ⟨h, fits_xor h hx⟩

/-- The output stage reverses the register exactly in the output-only configuration (R67). -/
theorem reversesResult_iff (p : Params) : reversesResult p = true ↔ outputOnly p := by
  unfold reversesResult selectBranch outputOnly
  cases p.inputReflected <;> cases p.resultReflected <;> simp

end Sys2Proof.Machine
end

