-- ==== Sys2Proof/Laws/Decode.lean ====
section
/-! SUPPORT. The frames as numbers: what the header bits and the parameter bits stand for, and which
byte of a serialised number is which. -/

namespace Sys2Proof.Machine

/-- Putting two fields side by side, as a number. -/
theorem toNat_append_eq {m n : Nat} (x : BitVec m) (y : BitVec n) :
    (x ++ y).toNat = x.toNat * 2 ^ n + y.toNat := by
  rw [BitVec.toNat_append, ← Nat.shiftLeft_add_eq_or_of_lt y.isLt, Nat.shiftLeft_eq]

/-- The bits of a format P frame as a number (R38). -/
theorem toNat_initFrame (p : Params) :
    (initFrame p).toNat =
      1 + p.width.toNat * 2 ^ 8 + p.inputReflected.toNat * 2 ^ 16 +
        p.resultReflected.toNat * 2 ^ 17 + p.polynomial.toNat * 2 ^ 24 +
        p.initialValue.toNat * 2 ^ 88 + p.finalXorValue.toNat * 2 ^ 152 := by
  have h1 : Opcode.init.toNat = 1 := rfl
  have h0 : (0 : BitVec 6).toNat = 0 := rfl
  rw [initFrame, toNat_append_eq, toNat_append_eq, toNat_append_eq, toNat_append_eq,
    toNat_append_eq, toNat_append_eq, toNat_append_eq, BitVec.toNat_ofBool, BitVec.toNat_ofBool,
    h1, h0]
  ring

/-- The header bits of a format D frame as a number (R38). -/
theorem toNat_dataHeader (op : Byte) (data : List Byte) (h : data.length < 2 ^ 32) :
    (dataHeader op data).toNat = op.toNat + data.length * 2 ^ 8 := by
  rw [dataHeader, toNat_append_eq, BitVec.toNat_ofNat, Nat.mod_eq_of_lt h, Nat.add_comm]

/-- Byte `k` of a serialised number (R39). -/
theorem getElem?_leBytes (n v k : Nat) (h : k < n) :
    (leBytes n v)[k]? = some (BitVec.ofNat 8 (v / 2 ^ (8 * k))) := by
  induction n generalizing v k with
  | zero => omega
  | succ n ih =>
    cases k with
    | zero => simp [leBytes]
    | succ k =>
      have hp : 256 * 2 ^ (8 * k) = 2 ^ (8 * (k + 1)) := by
        rw [Nat.mul_add, pow_add, mul_comm]
        rfl
      rw [leBytes, List.getElem?_cons_succ, ih _ _ (by omega), Nat.div_div_eq_div_mul, hp]

end Sys2Proof.Machine
end

