-- ==== Sys2Proof/Laws/State.lean ====
section
/-! SUPPORT. What each update of the state does to each field, one lemma per field per update, so
that no proof unfolds a record update. -/

namespace Sys2Proof.Machine

variable (s : State)

@[simp] theorem State.setAccumulate_params (v : Word) : (s.setAccumulate v).params = s.params := rfl
@[simp] theorem State.setAccumulate_accumulate (v : Word) : (s.setAccumulate v).accumulate = v := rfl
@[simp] theorem State.setAccumulate_configured (v : Word) : (s.setAccumulate v).configured = s.configured := rfl
@[simp] theorem State.setAccumulate_table (v : Word) : (s.setAccumulate v).table = s.table := rfl
@[simp] theorem State.setAccumulate_pending (v : Word) : (s.setAccumulate v).pending = s.pending := rfl
@[simp] theorem State.setAccumulate_commandIndex (v : Word) : (s.setAccumulate v).commandIndex = s.commandIndex := rfl
@[simp] theorem State.setAccumulate_results (v : Word) : (s.setAccumulate v).results = s.results := rfl
@[simp] theorem State.setAccumulate_w (v : Word) : (s.setAccumulate v).w = s.w := rfl
@[simp] theorem State.setAccumulate_tableRead (v : Word) : (s.setAccumulate v).tableRead = s.tableRead := rfl

@[simp] theorem State.configure_params (p : Params) (a : Word) : (s.configure p a).params = p := rfl
@[simp] theorem State.configure_accumulate (p : Params) (a : Word) : (s.configure p a).accumulate = a := rfl
@[simp] theorem State.configure_configured (p : Params) (a : Word) : (s.configure p a).configured = true := rfl
@[simp] theorem State.configure_table (p : Params) (a : Word) : (s.configure p a).table = s.table := rfl
@[simp] theorem State.configure_pending (p : Params) (a : Word) : (s.configure p a).pending = s.pending := rfl
@[simp] theorem State.configure_commandIndex (p : Params) (a : Word) : (s.configure p a).commandIndex = s.commandIndex := rfl
@[simp] theorem State.configure_results (p : Params) (a : Word) : (s.configure p a).results = s.results := rfl
@[simp] theorem State.configure_w (p : Params) (a : Word) : (s.configure p a).w = p.width.toNat := rfl
@[simp] theorem State.configure_tableRead (p : Params) (a : Word) : (s.configure p a).tableRead = s.tableRead := rfl

@[simp] theorem State.deliver_params (v : Word) : (s.deliver v).params = s.params := rfl
@[simp] theorem State.deliver_accumulate (v : Word) : (s.deliver v).accumulate = s.accumulate := rfl
@[simp] theorem State.deliver_configured (v : Word) : (s.deliver v).configured = s.configured := rfl
@[simp] theorem State.deliver_table (v : Word) : (s.deliver v).table = s.table := rfl
@[simp] theorem State.deliver_pending (v : Word) : (s.deliver v).pending = s.pending := rfl
@[simp] theorem State.deliver_commandIndex (v : Word) : (s.deliver v).commandIndex = s.commandIndex := rfl
@[simp] theorem State.deliver_results (v : Word) : (s.deliver v).results = s.results ++ [v] := rfl
@[simp] theorem State.deliver_w (v : Word) : (s.deliver v).w = s.w := rfl
@[simp] theorem State.deliver_tableRead (v : Word) : (s.deliver v).tableRead = s.tableRead := rfl

@[simp] theorem State.restoreInitial_params : (s.restoreInitial).params = s.params := rfl
@[simp] theorem State.restoreInitial_accumulate : (s.restoreInitial).accumulate = s.params.initialValue := rfl
@[simp] theorem State.restoreInitial_configured : (s.restoreInitial).configured = s.configured := rfl
@[simp] theorem State.restoreInitial_table : (s.restoreInitial).table = s.table := rfl
@[simp] theorem State.restoreInitial_pending : (s.restoreInitial).pending = s.pending := rfl
@[simp] theorem State.restoreInitial_commandIndex : (s.restoreInitial).commandIndex = s.commandIndex := rfl
@[simp] theorem State.restoreInitial_results : (s.restoreInitial).results = s.results := rfl
@[simp] theorem State.restoreInitial_w : (s.restoreInitial).w = s.w := rfl
@[simp] theorem State.restoreInitial_tableRead : (s.restoreInitial).tableRead = s.tableRead := rfl

@[simp] theorem State.consume_params (rest : List Byte) : (s.consume rest).params = s.params := rfl
@[simp] theorem State.consume_accumulate (rest : List Byte) : (s.consume rest).accumulate = s.accumulate := rfl
@[simp] theorem State.consume_configured (rest : List Byte) : (s.consume rest).configured = s.configured := rfl
@[simp] theorem State.consume_table (rest : List Byte) : (s.consume rest).table = s.table := rfl
@[simp] theorem State.consume_pending (rest : List Byte) : (s.consume rest).pending = rest := rfl
@[simp] theorem State.consume_commandIndex (rest : List Byte) : (s.consume rest).commandIndex = s.commandIndex + 1 := rfl
@[simp] theorem State.consume_results (rest : List Byte) : (s.consume rest).results = s.results := rfl
@[simp] theorem State.consume_w (rest : List Byte) : (s.consume rest).w = s.w := rfl
@[simp] theorem State.consume_tableRead (rest : List Byte) : (s.consume rest).tableRead = s.tableRead := rfl

@[simp] theorem State.send_params (bs : List Byte) : (s.send bs).params = s.params := rfl
@[simp] theorem State.send_accumulate (bs : List Byte) : (s.send bs).accumulate = s.accumulate := rfl
@[simp] theorem State.send_configured (bs : List Byte) : (s.send bs).configured = s.configured := rfl
@[simp] theorem State.send_table (bs : List Byte) : (s.send bs).table = s.table := rfl
@[simp] theorem State.send_pending (bs : List Byte) : (s.send bs).pending = s.pending ++ bs := rfl
@[simp] theorem State.send_commandIndex (bs : List Byte) : (s.send bs).commandIndex = s.commandIndex := rfl
@[simp] theorem State.send_results (bs : List Byte) : (s.send bs).results = s.results := rfl
@[simp] theorem State.send_w (bs : List Byte) : (s.send bs).w = s.w := rfl
@[simp] theorem State.send_tableRead (bs : List Byte) : (s.send bs).tableRead = s.tableRead := rfl

@[simp] theorem State.sendFirst_params (bs : List Byte) : (s.sendFirst bs).params = s.params := rfl
@[simp] theorem State.sendFirst_accumulate (bs : List Byte) : (s.sendFirst bs).accumulate = s.accumulate := rfl
@[simp] theorem State.sendFirst_configured (bs : List Byte) : (s.sendFirst bs).configured = s.configured := rfl
@[simp] theorem State.sendFirst_table (bs : List Byte) : (s.sendFirst bs).table = s.table := rfl
@[simp] theorem State.sendFirst_pending (bs : List Byte) : (s.sendFirst bs).pending = bs ++ s.pending := rfl
@[simp] theorem State.sendFirst_commandIndex (bs : List Byte) : (s.sendFirst bs).commandIndex = s.commandIndex := rfl
@[simp] theorem State.sendFirst_results (bs : List Byte) : (s.sendFirst bs).results = s.results := rfl
@[simp] theorem State.sendFirst_w (bs : List Byte) : (s.sendFirst bs).w = s.w := rfl
@[simp] theorem State.sendFirst_tableRead (bs : List Byte) : (s.sendFirst bs).tableRead = s.tableRead := rfl

@[simp] theorem State.supplyTable_params (es : List Word) : (s.supplyTable es).params = s.params := rfl
@[simp] theorem State.supplyTable_accumulate (es : List Word) : (s.supplyTable es).accumulate = s.accumulate := rfl
@[simp] theorem State.supplyTable_configured (es : List Word) : (s.supplyTable es).configured = s.configured := rfl
@[simp] theorem State.supplyTable_table (es : List Word) : (s.supplyTable es).table = Memory.writeFrom s.table 0 (es.take Config.tableDepth) := rfl
@[simp] theorem State.supplyTable_pending (es : List Word) : (s.supplyTable es).pending = s.pending := rfl
@[simp] theorem State.supplyTable_commandIndex (es : List Word) : (s.supplyTable es).commandIndex = s.commandIndex := rfl
@[simp] theorem State.supplyTable_results (es : List Word) : (s.supplyTable es).results = s.results := rfl
@[simp] theorem State.supplyTable_w (es : List Word) : (s.supplyTable es).w = s.w := rfl

@[simp] theorem State.powerOn_params : (s.powerOn).params = Params.powerOn := rfl
@[simp] theorem State.powerOn_accumulate : (s.powerOn).accumulate = 0 := rfl
@[simp] theorem State.powerOn_configured : (s.powerOn).configured = false := rfl
@[simp] theorem State.powerOn_table : (s.powerOn).table = s.table := rfl
@[simp] theorem State.powerOn_pending : (s.powerOn).pending = s.pending := rfl
@[simp] theorem State.powerOn_commandIndex : (s.powerOn).commandIndex = s.commandIndex := rfl
@[simp] theorem State.powerOn_results : (s.powerOn).results = s.results := rfl
@[simp] theorem State.powerOn_w : (s.powerOn).w = Params.powerOn.width.toNat := rfl
@[simp] theorem State.powerOn_tableRead : (s.powerOn).tableRead = s.tableRead := rfl

/-- A command that reads registers, on a configured engine. -/
@[simp] theorem State.ifConfigured_true {s : State} (k : State → Host.Outcome State Fault Refusal)
    (h : s.configured = true) : s.ifConfigured k = k s := by simp [State.ifConfigured, h]

/-- A command that reads registers, on an unconfigured engine. -/
@[simp] theorem State.ifConfigured_false {s : State} (k : State → Host.Outcome State Fault Refusal)
    (h : s.configured = false) : s.ifConfigured k = .refused .unconfigured := by
  simp [State.ifConfigured, h]

/-- Everything a guarded command can do when it answers a next state. -/
theorem State.ifConfigured_next {s t : State} {k : State → Host.Outcome State Fault Refusal}
    (h : s.ifConfigured k = .next t) : s.configured = true ∧ k s = .next t := by
  cases hc : s.configured with
  | true => exact ⟨rfl, by rwa [State.ifConfigured_true k hc] at h⟩
  | false => rw [State.ifConfigured_false k hc] at h; cases h

end Sys2Proof.Machine
end

