-- ==== Sys2Proof/Laws/Exec.lean ====
section
/-! SUPPORT. Everything a command and a step can do, said once: one case per command. -/

namespace Sys2Proof.Machine

/-- Inversion of `exec`: what a command that answers a next state has done. -/
theorem exec_next_cases {i : Instr} {s t : State} (h : exec i s = .next t) :
    (∃ p, i = .init p ∧ p.widthLegal = true ∧
      t = s.configure (truncParams p) (truncParams p).initialValue) ∨
    (∃ d, i = .calculate d ∧ s.configured = true ∧
      t = s.deliver (s.process s.params.initialValue d).visible) ∨
    (∃ d, i = .accum d ∧ s.configured = true ∧
      t = (s.setAccumulate (s.process s.accumulate d).stored).deliver
        (s.process s.accumulate d).visible) ∨
    (i = .reset ∧ s.configured = true ∧ t = s.restoreInitial) ∨
    (i = .get ∧ s.configured = true ∧
      t = s.restoreInitial.deliver (s.accumulate ^^^ s.params.finalXorValue)) := by
  cases i with
  | init p =>
    left
    change execInit p s = _ at h
    unfold execInit at h
    split at h
    · cases h; exact ⟨p, rfl, ‹_›, rfl⟩
    · cases h
  | calculate d =>
    change execCalc d s = _ at h
    unfold execCalc at h
    obtain ⟨hc, h⟩ := State.ifConfigured_next h
    cases h; exact .inr (.inl ⟨d, rfl, hc, rfl⟩)
  | accum d =>
    change execAccum d s = _ at h
    unfold execAccum at h
    obtain ⟨hc, h⟩ := State.ifConfigured_next h
    cases h; exact .inr (.inr (.inl ⟨d, rfl, hc, rfl⟩))
  | reset =>
    change execReset s = _ at h
    unfold execReset at h
    obtain ⟨hc, h⟩ := State.ifConfigured_next h
    cases h; exact .inr (.inr (.inr (.inl ⟨rfl, hc, rfl⟩)))
  | get =>
    change execGet s = _ at h
    unfold execGet at h
    obtain ⟨hc, h⟩ := State.ifConfigured_next h
    cases h; exact .inr (.inr (.inr (.inr ⟨rfl, hc, rfl⟩)))

/-- Everything a fetch can do when it answers a command. -/
theorem State.fetch_ok {s t : State} {i : Instr} (h : s.fetch = .ok (i, t)) :
    ∃ rest, decode s.pending = .ok (i, rest) ∧ t = s.consume rest := by
  unfold State.fetch at h
  cases hd : decode s.pending with
  | ok x => obtain ⟨j, rest⟩ := x; rw [hd] at h; cases h; exact ⟨rest, rfl, rfl⟩
  | error e => rw [hd] at h; cases h

/-- Inversion of `step`: the command that was taken, the bytes left, and its effect. -/
theorem step_next_cases {s t : State} (h : step s = .next t) :
    ∃ i rest, decode s.pending = .ok (i, rest) ∧ exec i (s.consume rest) = .next t := by
  unfold step at h
  cases hf : s.fetch with
  | ok x =>
    obtain ⟨i, u⟩ := x
    obtain ⟨rest, hd, rfl⟩ := State.fetch_ok hf
    rw [hf] at h
    exact ⟨i, rest, hd, h⟩
  | error r => rw [hf] at h; cases h

/-- A command sequence runs its first command and then the rest. -/
theorem runCommands_cons_next {i : Instr} {is : List Instr} {s t : State}
    (h : runCommands (i :: is) s = .next t) :
    ∃ u, exec i s = .next u ∧ runCommands is u = .next t := by
  rw [runCommands] at h
  cases he : exec i s with
  | next u => rw [he] at h; exact ⟨u, rfl, h⟩
  | fault r => cases r
  | refused r => rw [he] at h; cases h

/-- Running a machine for one more step. -/
theorem run_succ (M : Host.Core) (k : Nat) (s : M.State) :
    M.run (k + 1) s = match M.step s with
      | .next t => M.run k t
      | .fault r => .fault r
      | .refused r => .refused r := by
  cases h : M.step s <;> simp only [Host.Core.run, h]

end Sys2Proof.Machine
end

