-- ==== Sys2Proof/Laws/PerInstr.lean ====
section
/-! SUPPORT. Statements made of every command as syntax, one lemma per constructor. -/

namespace Sys2Proof.Laws.Framing

/-- The frame of a command begins with its opcode byte and has the length its format and LEN field
give it (R38 to R40). -/
def Statement (i : Instr) : Prop :=
  (encode i).head? = some i.opcode ∧
    (encode i).length = match i with
      | .init _ => 27
      | .calculate data => 5 + data.length
      | .accum data => 5 + data.length
      | .reset => 1
      | .get => 1

theorem head_encodeData (op : Byte) (data : List Byte) :
    (encodeData op data).head? = some op := by
  have h : BitVec.ofNat 8 (dataHeader op data).toNat = op := by
    have := op.isLt
    apply BitVec.eq_of_toNat_eq
    rw [dataHeader, BitVec.toNat_ofNat, BitVec.toNat_append, ← Nat.shiftLeft_add_eq_or_of_lt op.isLt,
      Nat.shiftLeft_eq]
    omega
  simp [encodeData, leBytes, h]

theorem length_encodeData (op : Byte) (data : List Byte) :
    (encodeData op data).length = 5 + data.length := by
  simp [encodeData]

theorem init (p : Params) : Statement (.init p) := by
  refine ⟨?_, Machine.length_leBytes 27 _⟩
  have h : BitVec.ofNat 8 (initFrame p).toNat = Opcode.init := by
    apply BitVec.eq_of_toNat_eq
    rw [initFrame, BitVec.toNat_ofNat, BitVec.toNat_append,
      ← Nat.shiftLeft_add_eq_or_of_lt Opcode.init.isLt, Nat.shiftLeft_eq]
    have := Opcode.init.isLt
    omega
  simp [encode, leBytes, h, Instr.opcode]

theorem calculate (data : List Byte) : Statement (.calculate data) :=
  ⟨head_encodeData _ _, length_encodeData _ _⟩

theorem accum (data : List Byte) : Statement (.accum data) :=
  ⟨head_encodeData _ _, length_encodeData _ _⟩

theorem reset : Statement .reset := ⟨rfl, rfl⟩

theorem get : Statement .get := ⟨rfl, rfl⟩

end Sys2Proof.Laws.Framing
end

