-- ==== Sys2Proof/Laws/Table.lean ====
section
/-! SUPPORT. The table memory: a read after a write, and that every operation on it keeps the
canonical form. -/

namespace Sys2Proof.Machine

/-- A read after the host's write: the written entry reads as the value, every other entry as
before. -/
theorem Memory.read_write (m : Memory) (i : Nat) (v : Word) (j : Nat)
    (h : m.Pairwise fun c d => c.1 < d.1) :
    Memory.read (Memory.write m i v) j = if i = j then v else Memory.read m j := by
  induction m with
  | nil => by_cases hv : v = Config.table i <;> by_cases hj : i = j <;> simp_all [Memory.write, Memory.read]
  | cons c m ih =>
    obtain ⟨k, u⟩ := c
    obtain ⟨hk, hm⟩ := List.pairwise_cons.mp h
    have hmiss : ∀ j, j ≤ k → Memory.read m j = Config.table j := by
      clear ih h
      intro j hj
      induction m with
      | nil => rfl
      | cons d m ihm =>
        have hd := hk d (by simp)
        have : ¬ d.1 = j := by simp only at hd; omega
        rw [Memory.read, if_neg this]
        exact ihm (fun e he => hk e (by simp [he])) (List.pairwise_cons.mp hm).2
    unfold Memory.write
    by_cases h1 : i < k
    · rw [if_pos h1]
      by_cases hv : v = Config.table i
      · rw [if_pos hv]
        by_cases hj : i = j
        · subst hj
          have hne : ¬ k = i := by omega
          rw [if_pos rfl, Memory.read, if_neg hne, hmiss i (by omega), hv]
        · rw [if_neg hj]
      · rw [if_neg hv, Memory.read]
    · rw [if_neg h1]
      by_cases h2 : i = k
      · subst h2
        rw [if_pos rfl]
        by_cases hv : v = Config.table i
        · rw [if_pos hv]
          by_cases hj : i = j
          · subst hj; rw [if_pos rfl, hmiss i le_rfl, hv]
          · rw [if_neg hj, Memory.read, if_neg hj]
        · rw [if_neg hv, Memory.read, Memory.read]
          by_cases hj : i = j <;> simp [hj]
      · rw [if_neg h2, Memory.read, Memory.read, ih hm]
        by_cases hj : i = j
        · subst hj
          have hne : ¬ k = i := by omega
          simp [hne]
        · simp [hj]

/-- The indexes a write can list. -/
theorem Memory.mem_write {m : Memory} {i : Nat} {v : Word} {c : TableCell}
    (h : c ∈ Memory.write m i v) : c ∈ m ∨ (c = (i, v) ∧ v ≠ Config.table i) := by
  induction m with
  | nil =>
    unfold Memory.write at h
    split at h <;> simp_all
  | cons d m ih =>
    obtain ⟨k, u⟩ := d
    unfold Memory.write at h
    split at h
    · split at h
      · exact .inl h
      · rcases List.mem_cons.mp h with h | h
        · exact .inr ⟨h, ‹_›⟩
        · exact .inl h
    · split at h
      · split at h
        · exact .inl (List.mem_cons_of_mem _ h)
        · rcases List.mem_cons.mp h with h | h
          · exact .inr ⟨h, ‹_›⟩
          · exact .inl (List.mem_cons_of_mem _ h)
      · rcases List.mem_cons.mp h with h | h
        · exact .inl (by simp [h])
        · rcases ih h with h | h
          · exact .inl (List.mem_cons_of_mem _ h)
          · exact .inr h

theorem Memory.rising_write {m : Memory} (i : Nat) (v : Word)
    (h : m.Pairwise fun c d => c.1 < d.1) :
    (Memory.write m i v).Pairwise fun c d => c.1 < d.1 := by
  induction m with
  | nil => unfold Memory.write; split <;> simp
  | cons d m ih =>
    obtain ⟨k, u⟩ := d
    obtain ⟨hk, hm⟩ := List.pairwise_cons.mp h
    unfold Memory.write
    split
    · split
      · exact h
      · refine List.pairwise_cons.mpr ⟨?_, h⟩
        intro c hc
        rcases List.mem_cons.mp hc with hc | hc
        · subst hc; assumption
        · have := hk c hc; simp only at this; omega
    · split
      · rename_i heq
        split
        · exact hm
        · exact List.pairwise_cons.mpr ⟨fun c hc => heq ▸ hk c hc, hm⟩
      · refine List.pairwise_cons.mpr ⟨?_, ih hm⟩
        intro c hc
        rcases Memory.mem_write hc with hc | ⟨hc, -⟩
        · exact hk c hc
        · subst hc; simp only; omega

/-- The host's write of an entry keeps the canonical form. -/
theorem Memory.wf_write {m : Memory} {i : Nat} (v : Word) (hi : i < Config.tableDepth)
    (h : Memory.wf m) : Memory.wf (Memory.write m i v) := by
  refine ⟨Memory.rising_write i v h.1, fun c hc => ?_⟩
  rcases Memory.mem_write hc with hc | ⟨rfl, hv⟩
  · exact h.2 c hc
  · exact ⟨hi, hv⟩

/-- Supplying a run of entries that ends inside the table keeps the canonical form. -/
theorem Memory.wf_writeFrom {m : Memory} {i : Nat} {vs : List Word}
    (hi : i + vs.length ≤ Config.tableDepth) (h : Memory.wf m) :
    Memory.wf (Memory.writeFrom m i vs) := by
  induction vs generalizing m i with
  | nil => exact h
  | cons v vs ih =>
    rw [List.length_cons] at hi
    exact ih (by omega) (Memory.wf_write v (by omega) h)

/-- The host's supply of a table keeps the canonical form. -/
theorem State.supplyTable_wf {s : State} (entries : List Word) (h : Memory.wf s.table) :
    Memory.wf (s.supplyTable entries).table := by
  refine Memory.wf_writeFrom ?_ h
  simp

/-- The table memory after power-on reset is in canonical form. -/
theorem State.reset_wf : Memory.wf State.reset.table := by simp [State.reset, Memory.wf]

end Sys2Proof.Machine
end

