-- ==== Sys2Proof/Machine/Assembler.lean ====
section
/-! DEFINITION. The textual form of a command (30_encoding.md R47), written and read, with the
pseudo-commands FINALIZE and PEEK (R48). A text is a list of characters. No step uses it: it is how
the spec writes command sequences down. -/

namespace Sys2Proof

/-! ## Writing -/

/-- One upper-case hexadecimal digit. -/
def hexDigit (d : Nat) : Char := ("0123456789ABCDEF".toList).getD (d % 16) '0'

/-- The low `n` hexadecimal digits of `v`, most significant first. -/
def hexDigits : Nat → Nat → List Char
  | 0, _ => []
  | n + 1, v => hexDigits n (v / 16) ++ [hexDigit v]

/-- How many hexadecimal digits of a container `v` needs. -/
def hexLength (v : Word) : Nat :=
  ((List.range 16).filter fun k => v.toNat / 16 ^ k ≠ 0).length

/-- `0x` and the value, zero-padded to `w/4` digits (R47). -/
def hexText (w : Nat) (v : Word) : List Char :=
  ['0', 'x'] ++ hexDigits (max (w / 4) (hexLength v)) v.toNat

/-- The decimal text of a WIDTH (R47). -/
def decimalText (n : Nat) : List Char :=
  if n < 10 then [hexDigit n]
  else if n < 100 then [hexDigit (n / 10), hexDigit (n % 10)]
  else [hexDigit (n / 100), hexDigit (n / 10 % 10), hexDigit (n % 10)]

/-- A flag as the text 0 or 1 (R47). -/
def flagText (b : Bool) : List Char := if b then ['1'] else ['0']

/-- The data operand as a bracketed list of hexadecimal bytes (R47). -/
def dataText (data : List Byte) : List Char :=
  ['['] ++ ((data.map fun b => hexDigits 2 b.toNat).intersperse [' ']).flatten ++ [']']

/-- The textual form of a command (R47); of the two spellings of a data operand the bracketed list
is written. -/
def Instr.text : Instr → List Char
  | .init p =>
    "INIT  width=".toList ++ decimalText p.width.toNat ++
      ", refin=".toList ++ flagText p.inputReflected ++
      ", refout=".toList ++ flagText p.resultReflected ++
      ", poly=".toList ++ hexText p.width.toNat p.polynomial ++
      ", init=".toList ++ hexText p.width.toNat p.initialValue ++
      ", xorout=".toList ++ hexText p.width.toNat p.finalXorValue
  | .calculate data => "CALC  ".toList ++ dataText data
  | .accum data => "ACCUM ".toList ++ dataText data
  | .reset => "RESET".toList
  | .get => "GET".toList

/-- A line that returns a result: the command, `->` and the value zero-padded to `w/4` digits (R47). -/
def resultText (w : Nat) (i : Instr) (v : Word) : List Char :=
  i.text ++ " -> ".toList ++ hexText w v

/-! ## Reading -/

/-- The text after leading spaces. -/
def skipSpaces (cs : List Char) : List Char := cs.dropWhile fun c => c == ' '

/-- The text after a given word, if it starts with it. -/
def readWord : List Char → List Char → Option (List Char)
  | [], cs => some cs
  | _ :: _, [] => none
  | w :: ws, c :: cs => if w = c then readWord ws cs else none

/-- The value of a digit in base 16, upper or lower case. -/
def digitValue (c : Char) : Option Nat :=
  if '0' ≤ c ∧ c ≤ '9' then some (c.toNat - 48)
  else if 'A' ≤ c ∧ c ≤ 'F' then some (c.toNat - 55)
  else if 'a' ≤ c ∧ c ≤ 'f' then some (c.toNat - 87)
  else none

/-- Read the digits of a base at the front of a text, continuing from the number `acc`. -/
def readDigits (base : Nat) : Nat → List Char → Nat × List Char
  | acc, [] => (acc, [])
  | acc, c :: cs =>
    match digitValue c with
    | some d => if d < base then readDigits base (base * acc + d) cs else (acc, c :: cs)
    | none => (acc, c :: cs)

/-- Read a number of a base: at least one digit. -/
def readNumber (base : Nat) (cs : List Char) : Option (Nat × List Char) :=
  match readDigits base 0 cs with
  | (v, rest) => if rest.length < cs.length then some (v, rest) else none

/-- Read `, name=` or, for the first field, `name=`, and then a number; hexadecimal ones carry `0x`. -/
def readField (comma name : String) (hex : Bool) (limit : Nat) (cs : List Char) :
    Option (Nat × List Char) := do
  let cs ← readWord comma.toList cs
  let cs ← readWord name.toList (skipSpaces cs)
  let cs ← readWord (if hex then "=0x".toList else "=".toList) cs
  let (v, rest) ← readNumber (if hex then 16 else 10) cs
  if v < limit then some (v, rest) else none

/-- Read the operands of INIT: `width=<decimal>, refin=<0|1>, refout=<0|1>, poly=<hex>, init=<hex>,
xorout=<hex>` (R47). -/
def readParams (cs : List Char) : Option Params := do
  let (width, cs) ← readField "" "width" false (2 ^ 8) cs
  let (ir, cs) ← readField "," "refin" false 2 cs
  let (rr, cs) ← readField "," "refout" false 2 cs
  let (poly, cs) ← readField "," "poly" true (2 ^ 64) cs
  let (iv, cs) ← readField "," "init" true (2 ^ 64) cs
  let (fx, cs) ← readField "," "xorout" true (2 ^ 64) cs
  if skipSpaces cs = [] then
    some ⟨BitVec.ofNat 8 width, ir == 1, rr == 1, BitVec.ofNat 64 poly, BitVec.ofNat 64 iv,
      BitVec.ofNat 64 fx⟩
  else none

/-- Read hexadecimal bytes separated by single spaces up to a closing bracket that ends the text. -/
def readHexBytes : List Char → Option (List Byte)
  | [']'] => some []
  | ' ' :: a :: b :: cs => do
    let h ← digitValue a
    let l ← digitValue b
    let rest ← readHexBytes cs
    some (BitVec.ofNat 8 (16 * h + l) :: rest)
  | _ => none

/-- Read the ASCII characters of a quoted string up to the closing quote that ends the text: each
character is one byte with its ASCII code, with no terminator. -/
def readQuoted : List Char → Option (List Byte)
  | [] => none
  | [c] => if c = '"' then some [] else none
  | c :: cs =>
    if c = '"' then none
    else if c.toNat < 128 then (readQuoted cs).map (BitVec.ofNat 8 c.toNat :: ·)
    else none

/-- Read a data operand in either spelling: a double-quoted ASCII string or a bracketed list of
hexadecimal bytes (R47). -/
def readData : List Char → Option (List Byte)
  | '"' :: cs => readQuoted cs
  | ['[', ']'] => some []
  | '[' :: cs => readHexBytes (' ' :: cs)
  | _ => none

/-- Read one command in its textual form (R47) or a pseudo-command (R48). -/
def assemble (cs : List Char) : Option Instr :=
  match readWord "INIT ".toList cs with
  | some cs => (readParams (skipSpaces cs)).map .init
  | none =>
    match readWord "CALC ".toList cs with
    | some cs => (readData (skipSpaces cs)).map .calculate
    | none =>
      match readWord "ACCUM ".toList cs with
      | some cs => (readData (skipSpaces cs)).map .accum
      | none =>
        if cs = "RESET".toList then some .reset
        else if cs = "GET".toList then some .get
        else if cs = "FINALIZE".toList then some Pseudo.finalize
        else if cs = "PEEK".toList then some Pseudo.peek
        else none

end Sys2Proof
end

