-- ==== Sys2Proof/Tests/Slice0.lean ====
section
/-! SUPPORT. The model's own tests. Expected values come from spec/95_test_vectors.md (the vector is
named at each test) or from the rule named there. The last part gives, for every statement with
hypotheses, a concrete case that meets them. -/

namespace Sys2Proof.Tests

open Sys2Proof Sys2Proof.Machine

/-! ## Well-formedness: an ill-formed term for each check -/

/-- R44: WIDTH = 12 is no multiple of 8. -/
theorem test_width_twelve_refused : Instr.wellFormed (.init ⟨12, false, false, 0, 0, 0⟩) = false := by
  decide

/-- R44: WIDTH = 0 and WIDTH = 72 are outside 8 .. 64; 8 and 64 are the ends of the range. -/
theorem test_width_range :
    [0, 8, 64, 72].map (fun w => Instr.wellFormed (.init ⟨w, false, false, 0, 0, 0⟩)) =
      [false, true, true, false] := by decide

/-- R38: LEN has 32 bits, so a data operand of `2^32` bytes has no frame. -/
theorem test_overlong_data_refused (data : List Byte) (h : data.length = 4294967296) :
    Instr.wellFormed (.calculate data) = false ∧ Instr.wellFormed (.accum data) = false := by
  simp [Instr.wellFormed, lenLegal, Config.lenBits, h]

/-! ## Decoding: frames written out from R38 to R40 (V18) -/

theorem test_decode_init_crc32 :
    decode [0x01, 0x20, 0x03, 0xB7, 0x1D, 0xC1, 0x04, 0, 0, 0, 0, 0xFF, 0xFF, 0xFF, 0xFF, 0, 0, 0, 0,
        0xFF, 0xFF, 0xFF, 0xFF, 0, 0, 0, 0] =
      .ok (.init ⟨32, true, true, 0x04C11DB7, 0xFFFFFFFF, 0xFFFFFFFF⟩, []) := by decide

/-- The flags byte 01: only bit 16, INPUT_REFLECTED. -/
theorem test_decode_init_input_only :
    decode [0x01, 0x08, 0x01, 0x07, 0, 0, 0, 0, 0, 0, 0, 0, 0, 0, 0, 0, 0, 0, 0, 0, 0, 0, 0, 0, 0, 0, 0] =
      .ok (.init ⟨8, true, false, 0x07, 0, 0⟩, []) := by decide

theorem test_decode_calc : decode [0x02, 0x04, 0, 0, 0, 0x31, 0x32, 0x33, 0x34, 0x05] =
    .ok (.calculate [0x31, 0x32, 0x33, 0x34], [0x05]) := by decide

theorem test_decode_accum : decode [0x03, 0x02, 0, 0, 0, 0x04, 0x05] =
    .ok (.accum [0x04, 0x05], []) := by decide

theorem test_decode_reset : decode [0x04] = .ok (.reset, []) := by decide

theorem test_decode_get : decode [0x05] = .ok (.get, []) := by decide

theorem test_decode_reserved : [0x00, 0x06, 0xFF].map (fun op => decode [op]) =
    [.error (.reservedOpcode 0x00), .error (.reservedOpcode 0x06), .error (.reservedOpcode 0xFF)] := by
  decide

/-- WIDTH = 72 exceeds W_MAX; reserved bit 18 set. -/
theorem test_decode_malformed_init :
    decode ([0x01, 0x48, 0x00] ++ List.replicate 24 0) = .error (.illegalWidth 0x48) ∧
      decode ([0x01, 0x10, 0x07] ++ List.replicate 24 0) = .error .reservedBitsSet := by decide

/-- The table's own numbering: bit 0 is the lowest bit of the opcode byte. -/
theorem test_decode_table_words :
    decodeTableWord 216 0x031001 = some (.init ⟨16, true, true, 0, 0, 0⟩) ∧
      decodeTableWord 40 0x02 = some (.calculate []) ∧ decodeTableWord 8 0x03 = some (.accum []) ∧
      decodeTableWord 8 0x04 = some .reset ∧ decodeTableWord 8 0x05 = some .get ∧
      decodeTableWord 216 0x01 = none := by decide

/-! ## The textual form (R47, R48) -/

/-- The example of R50, read. -/
theorem test_assemble_init :
    assemble "INIT width=32, refin=1, refout=1, poly=0x04C11DB7, init=0xFFFFFFFF, xorout=0xFFFFFFFF".toList =
      some (.init ⟨32, true, true, 0x04C11DB7, 0xFFFFFFFF, 0xFFFFFFFF⟩) := by decide

/-- The two spellings of a data operand. -/
theorem test_assemble_data :
    assemble "ACCUM \"hello \"".toList = some (.accum [0x68, 0x65, 0x6C, 0x6C, 0x6F, 0x20]) ∧
      assemble "CALC [12 34]".toList = some (.calculate [0x12, 0x34]) ∧
      assemble "CALC \"\"".toList = some (.calculate []) ∧
      assemble "PEEK".toList = some (.accum []) := by decide

/-- The line of V1's result, `w/4` digits. -/
theorem test_result_text :
    resultText 16 (.calculate [0x12, 0x34]) 0x26 =
      ['C', 'A', 'L', 'C', ' ', ' ', '[', '1', '2', ' ', '3', '4', ']', ' ', '-', '>', ' ',
        '0', 'x', '0', '0', '2', '6'] := by decide

/-! ## The functions (V19 to V22) -/

theorem test_reverse_bits : reverseBits 0x31 8 = 0x8C ∧ reverseBits 0x1FF 8 = 0xFF ∧
    reverseBits 0x1D0F 16 = 0xF0B8 ∧ reverseBits 0x864CFB 24 = 0xDF3261 ∧ reverseBits 0x5 0 = 0 := by
  decide

theorem test_reverse_bits_whole_container :
    reverseBits 0x42F0E1EBA9EA3693 64 = 0xC96C5795D7870F42 := by
  simp [reverseBits, reverseLoop]

theorem test_fold_a : foldA 32 (fun _ => 0x6E6B06E7) 0xFFFFFFFF 0x68 = 0x6E94F918 ∧
    foldA 16 (fun i => i.setWidth 64) 0x0012 0x34 = 0x0026 ∧
    foldA 8 (fun i => i.setWidth 64) 0x5A 0x12 = 0x48 := by decide

theorem test_fold_b : foldB 16 true (fun _ => 0x9398) 0x1D0F 0x31 = 0x9C98 ∧
    foldB 16 true (fun i => i.setWidth 64) 0x0048 0x34 = 0x482C ∧
    foldB 24 false (fun _ => 0x2A7448) 0xB704CE 0x31 = 0x2EBA48 := by decide

theorem test_output_stage :
    outputStage ⟨8, false, true, 0, 0, 0x0F⟩ 0x01 = ⟨0x80, 0x8F⟩ ∧
      outputStage ⟨16, true, true, 0, 0, 0x0001⟩ 0x1D0F = ⟨0x1D0F, 0x1D0E⟩ := by decide

/-! ## One step of each command, on a small state -/

/-- An engine with the given record, fresh, and the table `TID` of section 2 at the entries the
tests read (entry = index). -/
def engine (p : Params) : State :=
  { State.reset with
    params := p, accumulate := p.initialValue, configured := true
    table := [(0x12, 0x12), (0x26, 0x26), (0x2C, 0x2C), (0x34, 0x34), (0x48, 0x48), (0x7C, 0x7C)] }

/-- A width-16 record with the given flags. -/
def record16 (ir rr : Bool) : Params := ⟨16, ir, rr, 0x1021, 0, 0⟩

/-- The next state of an outcome. -/
def nextOf : Host.Outcome State Fault Refusal → Option State
  | .next t => some t
  | .fault _ => none
  | .refused _ => none

/-- V18: an INIT with over-wide fields, `init=0x12345`, `xorout=0xF0001`, width 16 (V11). -/
theorem test_init_truncates :
    (nextOf (exec (.init ⟨16, false, false, 0x1021, 0x12345, 0xF0001⟩) State.reset)).map
      (fun t => (t.params.initialValue, t.params.finalXorValue, t.accumulate, t.configured)) =
      some (0x2345, 0x0001, 0x2345, true) := by decide

/-- R51 (a): INIT in mid-accumulation discards the running value. -/
theorem test_init_discards :
    (nextOf (exec (.init (record16 true false))
      ((engine (record16 false false)).setAccumulate 0xD789))).map State.accumulate = some 0 := by decide

/-- V15: the four configurations give four values. -/
theorem test_calc_configurations :
    [(false, false), (true, true), (true, false), (false, true)].map (fun f =>
      (nextOf (exec (.calculate [0x12, 0x34]) (engine (record16 f.1 f.2)))).map State.results) =
      [some [0x1234], some [0x0026], some [0x482C], some [0x2C48]] := by decide

/-- V15, w = 8: both branches give 0x73. -/
theorem test_calc_width_eight :
    [true, false].map (fun f =>
      (nextOf (exec (.calculate [0x12, 0x34]) (engine ⟨8, f, f, 0, 0x5A, 0x0F⟩))).map State.results) =
      [some [0x73], some [0x73]] := by decide

/-- V13: with no data in output-only ACCUM reverses the register. -/
theorem test_accum_empty_output_only :
    (nextOf (exec (.accum []) (engine ⟨16, false, true, 0x1021, 0x1D0F, 0x0001⟩))).map
      (fun t => (t.accumulate, t.results)) = some (0xF0B8, [0xF0B9]) := by decide

/-- V15 data on a running register: ACCUM of 34 from 0x0012 in Branch B. -/
theorem test_accum_continues :
    (nextOf (exec (.accum [0x34]) ((engine (record16 false false)).setAccumulate 0x0012))).map
      (fun t => (t.accumulate, t.results)) = some (0x1234, [0x1234]) := by decide

/-- R76's worked example. -/
theorem test_reset_restores :
    (nextOf (exec .reset ((engine ⟨32, true, true, 0, 0xFFFFFFFF, 0xFFFFFFFF⟩).setAccumulate
      0x127E0609))).map (fun t => (t.accumulate, t.results)) = some (0xFFFFFFFF, []) := by decide

/-- R77's worked example. -/
theorem test_get_resets :
    (nextOf (exec .get ((engine ⟨32, true, true, 0, 0xFFFFFFFF, 0xFFFFFFFF⟩).setAccumulate
      0xDBE95D7F))).map (fun t => (t.accumulate, t.results)) =
      some (0xFFFFFFFF, [0x2416A280]) := by decide

/-- V13: GET reflects nothing in output-only. -/
theorem test_get_output_only :
    (nextOf (exec .get (engine ⟨16, false, true, 0x1021, 0x1D0F, 0x0001⟩))).map State.results =
      some [0x1D0E] := by decide

/-- V18's last row: CALC sent to an engine that has executed no INIT. -/
theorem test_calc_before_init_refused :
    step (State.reset.withFetchWord 40 0x02) = .refused .unconfigured := rfl

/-- A step takes its frame and leaves the next one. -/
theorem test_step_consumes :
    (nextOf (step ((engine (record16 false false)).send [0x03, 1, 0, 0, 0, 0x12, 0x05]))).map
      (fun t => (t.pending, t.commandIndex, t.accumulate)) = some ([0x05], 1, 0x0012) := by decide

/-- An INIT word in front of the command port runs first after reset. -/
theorem test_init_runs_from_reset :
    (nextOf (step (State.reset.withFetchWord 216 0x1001))).map (fun t => (t.configured, t.w, t.pending)) =
      some (true, 16, []) := by decide

/-! ## Witnesses: for every statement with hypotheses, a case that meets them -/

/-- An output-only engine with a non-palindromic initial value and an empty supplied table. -/
def outOnly : State :=
  { State.reset with params := ⟨16, false, true, 0x1021, 0x1D0F, 0x0001⟩, accumulate := 0x1D0F, configured := true }

/-- A reflected-neither engine, fresh. -/
def plain : State :=
  { State.reset with params := ⟨16, false, false, 0x1021, 0x1D0F, 0x0001⟩, accumulate := 0x1D0F, configured := true }

theorem registersFit_of (s : State) (h : (decide (s.w ∈ Config.widths) &&
    decide (s.params.polynomial.toNat < 2 ^ s.w) && decide (s.params.initialValue.toNat < 2 ^ s.w) &&
    decide (s.params.finalXorValue.toNat < 2 ^ s.w) && decide (s.accumulate.toNat < 2 ^ s.w)) = true) :
    RegistersFit s := by
  simp only [Bool.and_eq_true, decide_eq_true_eq] at h
  exact ⟨h.1.1.1.1, h.1.1.1.2, h.1.1.2, h.1.2, h.2⟩

theorem outOnly_fits : RegistersFit outOnly := registersFit_of _ (by decide)

theorem plain_fits : RegistersFit plain := registersFit_of _ (by decide)

theorem plain_invariant : Invariant plain := ⟨State.reset_wf, fun _ => plain_fits⟩

theorem plain_not_outputOnly : ¬ outputOnly plain.params := fun h => by cases h.2

theorem witness_FrameBytesAreTheFrameBitsInOrder : ([0x31, 0x32] : List Byte).length < 2 ^ 32 := by decide

theorem witness_DecodeOfEncodeIsTheCommand :
    Instr.wellFormed (.init ⟨64, true, false, 1, 2, 3⟩) = true ∧
      Instr.wellFormed (.accum [0x04]) = true := by decide

theorem witness_AcceptedBytesAreTheFrameOfTheCommand :
    decode [0x02, 1, 0, 0, 0, 0x31, 0x04] = .ok (.calculate [0x31], [0x04]) := by decide

theorem witness_ReservedOpcodesAreRefused :
    ((0x00 : Byte) = 0 ∧ 6 ≤ (0x06 : Byte).toNat ∧ 6 ≤ (0xFF : Byte).toNat) ∧
      (plain.send [0x06, 1]).pending = [0x06, 1] ∧
      (plain.send [0x04, 0x06, 1]).pending = encodeAll [.reset] ++ 0x06 :: [1] := by decide

theorem witness_InitFrameIsAcceptedExactlyWhenWellFormed :
    (List.replicate 24 (0 : Byte)).length = 24 ∧
      ((8 ∣ (8 : Byte).toNat ∧ 8 ≤ (8 : Byte).toNat ∧ (8 : Byte).toNat ≤ 64) ∧ (3 : Byte).toNat / 4 = 0) ∧
      ¬ ((8 ∣ (72 : Byte).toNat ∧ 8 ≤ (72 : Byte).toNat ∧ (72 : Byte).toNat ≤ 64) ∧ (3 : Byte).toNat / 4 = 0) ∧
      ¬ ((8 ∣ (64 : Byte).toNat ∧ 8 ≤ (64 : Byte).toNat ∧ (64 : Byte).toNat ≤ 64) ∧ (4 : Byte).toNat / 4 = 0) := by
  decide

theorem witness_StepRunsTheDecodedCommand :
    decode (plain.send [0x05, 0x04]).pending = .ok (.get, [0x04]) := by decide

theorem witness_CommandIndexAdvancesByOnePerCommand :
    step (plain.send [0x04]) = .next { plain with commandIndex := 1 } ∧ exec .reset plain = .next plain :=
  ⟨rfl, rfl⟩

theorem witness_StepCompletesExactlyOnCommandsWithAMeaning :
    decode (State.reset.withFetchWord 216 0x1001).pending =
        .ok (.init ⟨16, false, false, 0, 0, 0⟩, []) ∧
      decode (plain.send [0x04]).pending = .ok (.reset, []) ∧ plain.configured = true := by decide

theorem witness_WellFormedCommandOnConfiguredEngineCompletes :
    Instr.wellFormed (.accum [0x12]) = true ∧ plain.configured = true ∧
      (plain.send [0x03, 1, 0, 0, 0, 0x12, 0x05]).pending = encode (.accum [0x12]) ++ [0x05] := by decide

theorem witness_RunOfFramesExecutesTheCommandsInOrder :
    (∀ i ∈ [Instr.accum [0x12], .get], i.wellFormed = true) ∧
      (plain.send [0x03, 1, 0, 0, 0, 0x12, 0x05, 0x04]).pending =
        encodeAll [.accum [0x12], .get] ++ [0x04] := by decide

theorem witness_UnconfiguredEngineRefusesAllButInit :
    State.reset.configured = false ∧ (8 : Byte).toNat ∈ Config.widths ∧
      (64 : Byte).toNat ∈ Config.widths := by decide

/-- Each command answers a next state somewhere (for the statements about every command). -/
theorem witness_every_command_answers :
    exec (.init (record16 false true)) State.reset =
        .next (State.reset.configure (record16 false true) 0) ∧
      (∃ t, exec (.calculate [0x12]) plain = .next t) ∧ (∃ t, exec (.accum [0x12]) plain = .next t) ∧
      exec .reset plain = .next plain ∧ (∃ t, exec .get plain = .next t) :=
  ⟨by rfl, ⟨_, rfl⟩, ⟨_, rfl⟩, rfl, ⟨_, rfl⟩⟩

theorem witness_SoftwareResetsAndWhatEachCommandLeaves : exec .reset plain = .next plain := rfl

theorem witness_NoCommandChangesTableOrHostSide : exec .reset plain = .next plain := rfl

theorem witness_EachCommandDeliversItsResults :
    (∃ t, exec .get plain = .next t) ∧ RegistersFit plain := ⟨⟨_, rfl⟩, plain_fits⟩

theorem witness_InitLoadsTheRecordTruncatedToItsWidth :
    (Params.width ⟨8, false, false, 1, 0x1FF, 3⟩).toNat ∈ Config.widths ∧
      (Params.width ⟨64, true, true, 1, 2, 3⟩).toNat ∈ Config.widths := by decide

theorem witness_InitWithIllegalWidthIsRefused :
    (Params.width ⟨12, false, false, 0, 0, 0⟩).toNat ∉ Config.widths := by decide

theorem witness_CalcReturnsTheChecksumAndWritesNoRegister :
    (plain.configured = true ∧ ¬ outputOnly plain.params) ∧
      (outOnly.configured = true ∧ outputOnly outOnly.params) :=
  ⟨⟨rfl, plain_not_outputOnly⟩, rfl, rfl, rfl⟩

theorem witness_AccumulationProceedsAsIfCalcsWereAbsent :
    ∃ t, runCommands [.accum [0x12], .calculate [0x34], .get] plain = .next t := ⟨_, rfl⟩

theorem witness_AccumKeepsTheFoldAndReturnsItXored :
    (plain.configured = true ∧ ¬ outputOnly plain.params) ∧
      (outOnly.configured = true ∧ outputOnly outOnly.params) :=
  witness_CalcReturnsTheChecksumAndWritesNoRegister

theorem witness_AccumReturnsWhatTheNextGetReturns : ∃ t, exec (.accum [0x12]) plain = .next t := ⟨_, rfl⟩

theorem witness_ResetRestoresTheInitialValue :
    plain.configured = true ∧ plain.accumulate = plain.params.initialValue := ⟨rfl, rfl⟩

theorem witness_GetReturnsTheChecksumAndResets : (plain.setAccumulate 5).configured = true := rfl

theorem witness_GetOnAFreshEngineReturnsInitialXorFinal :
    (∃ t, exec (.init (record16 true true)) State.reset = .next t) ∧ (∃ t, exec .reset plain = .next t) ∧
      (∃ t, exec .get plain = .next t) ∧ Instr.isInit (.init (record16 true true)) = true :=
  ⟨⟨_, rfl⟩, ⟨_, rfl⟩, ⟨_, rfl⟩, rfl⟩

theorem witness_ReverseBitsClosedForm : (0 ≤ 64 ∧ 8 ≤ 64 ∧ 64 ≤ 64) ∧ (7 < 8 ∧ 8 ≤ 8) := by decide

theorem witness_ReverseBitsLaws : 16 ≤ 64 ∧ fits 16 0xF0B8 ∧ fits 0 0 ∧ fits 64 0xFFFFFFFFFFFFFFFF ∧ 16 ≤ 16 := by
  unfold fits
  decide

theorem witness_FoldAShiftsRightAndIndexesTheLowByte :
    (8 ∈ Config.widths ∧ fits 8 0xFF) ∧ (64 ∈ Config.widths ∧ fits 64 0xFFFFFFFFFFFFFFFF) ∧
      (fun _ : Byte => (0x6E6B06E7 : Word)) 0x97 = 0x6E6B06E7 := by
  unfold fits
  decide

theorem witness_FoldBShiftsLeftAndIndexesTheTopByte :
    (8 ∈ Config.widths ∧ fits 8 0xFF) ∧ (64 ∈ Config.widths ∧ fits 64 0xFFFFFFFFFFFFFFFF) ∧
      (fun _ : Byte => (0x2672 : Word)) 0x31 = 0x2672 := by
  unfold fits
  decide

theorem witness_FoldsAtWidthEight : fits 8 0xFF := by unfold fits; decide

theorem witness_FoldBEquivalentForm : 24 ∈ Config.widths ∧ fits 24 0xB704CE := by unfold fits; decide

theorem witness_OutputStageReversesOnlyInOutputOnly :
    ((16 : Byte).toNat ∈ Config.widths ∧ fits 16 0xD999 ∧ fits 16 0x0001) ∧
      Params.width ⟨16, false, true, 0, 0, 1⟩ = 16 ∧ plain.configured = true := by
  unfold fits
  decide

theorem witness_AccumsComposeOverConcatenation :
    (plain.configured = true ∧ ¬ outputOnly plain.params) ∧
      (outOnly.configured = true ∧ outputOnly outOnly.params) :=
  witness_CalcReturnsTheChecksumAndWritesNoRegister

theorem witness_ChunkingEquivalence :
    plain.configured = true ∧ Fresh plain ∧ ¬ outputOnly plain.params ∧ ([[0x12], []] : List (List Byte)) ≠ [] :=
  ⟨rfl, rfl, plain_not_outputOnly, by decide⟩

theorem witness_ChunkingInOutputOnly : outOnly.configured = true ∧ Fresh outOnly ∧ outputOnly outOnly.params :=
  ⟨rfl, rfl, rfl, rfl⟩

theorem witness_ResetIsAFreshStart :
    plain.configured = true ∧ RegistersFit plain ∧
      ∃ t, exec (.init (record16 true false)) State.reset = .next t := ⟨rfl, plain_fits, _, rfl⟩

theorem witness_ZeroLengthData :
    (plain.configured = true ∧ ¬ outputOnly plain.params) ∧
      (outOnly.configured = true ∧ outputOnly outOnly.params) :=
  witness_CalcReturnsTheChecksumAndWritesNoRegister

theorem witness_TwoEmptyAccumsRestoreTheRegister :
    outOnly.configured = true ∧ RegistersFit outOnly ∧ outputOnly outOnly.params :=
  ⟨rfl, outOnly_fits, rfl, rfl⟩

theorem witness_BranchEquivalence :
    ∃ tb ta : Byte → Word, 16 ∈ Config.widths ∧ (∀ i, ta i = reverseBits (tb (reverseByte i)) 16) ∧
      fits 16 0x1D0F ∧ fits 16 0xFFFF ∧ reverseBits 0xFFFF 16 = 0xFFFF :=
  ⟨fun i => i.setWidth 64, _, by decide, fun _ => rfl, by unfold fits; decide, by unfold fits; decide, by decide⟩

theorem witness_EveryStepKeepsTheInvariant :
    Invariant (plain.send [0x04]) ∧ ∃ t, step (plain.send [0x04]) = .next t :=
  ⟨⟨State.reset_wf, fun _ => registersFit_of _ (by decide)⟩, _, rfl⟩

theorem witness_WidthBoundaryMasking :
    (Invariant plain ∧ ∃ t, exec (.accum [0x12]) plain = .next t) ∧
      (∀ k : Byte, trunc plain.w (Memory.read [] k.toNat) = trunc plain.w (plain.tableRead k)) ∧
      trunc 16 0xF1021 = trunc 16 0x1021 ∧ trunc 16 0x12345 = trunc 16 0x2345 ∧
      trunc 16 0xF0001 = trunc 16 0x0001 :=
  ⟨⟨plain_invariant, _, rfl⟩, fun _ => rfl, by decide, by decide, by decide⟩

/-- V11's pair of tables: entries that differ in bits 31 to 16 only, at w = 16. -/
theorem witness_WidthBoundaryMasking_tables (k : Byte) :
    trunc 16 (Memory.read [(0x12, 0xABCD0012)] k.toNat) = trunc 16 (Memory.read [(0x12, 0x0012)] k.toNat) := by
  by_cases h : 0x12 = k.toNat
  · simp only [Memory.read, h, if_true]; decide
  · simp only [Memory.read, h, if_false]

theorem witness_FinalXorChangesResultsOnly :
    (∀ i ∈ [Instr.accum [0x12], .calculate [], .get, .reset], i.isInit = false) ∧
      (∃ t, runCommands [.accum [0x12], .calculate [], .get, .reset] plain = .next t) ∧
      ∃ t, exec (.init (record16 false true)) State.reset = .next t :=
  ⟨by decide, ⟨_, rfl⟩, _, rfl⟩

theorem witness_SuppliedTableReadsBack :
    Memory.wf plain.table ∧ (List.replicate 256 (7 : Word)).length = 256 :=
  ⟨State.reset_wf, List.length_replicate⟩

/-- A memory with a listed entry that is in canonical form whatever the free table content is. -/
theorem witness_TablesThatReadAlikeAreEqual :
    Memory.wf [(3, ~~~ Config.table 3)] ∧
      ∀ i : Byte, Memory.read [(3, ~~~ Config.table 3)] i.toNat =
        Memory.read [(3, ~~~ Config.table 3)] i.toNat := by
  have h : ∀ v : Word, ~~~ v ≠ v := by
    intro v hv
    have h0 := congrArg (fun x => BitVec.getLsbD x 0) hv
    simp at h0
  exact ⟨⟨by simp, by simp [Config.tableDepth, h]⟩, fun _ => rfl⟩

/-- The CRC-32 engine of V1 with the table entries its trace reads. -/
def crc32Engine : State :=
  { State.reset with
    params := ⟨32, true, true, 0x04C11DB7, 0xFFFFFFFF, 0xFFFFFFFF⟩, accumulate := 0xFFFFFFFF, configured := true
    table := [(0x14, 0x1ADAD47D), (0x2A, 0xDBBBC9D6), (0x52, 0x856530D8), (0x53, 0xF262004E),
      (0x59, 0x12B7E950), (0x5B, 0xFCB9887C), (0x73, 0xC90C2086), (0x7D, 0x2EB40D81),
      (0x7E, 0xB7BD5C3B), (0x88, 0xE3630B12), (0x97, 0x6E6B06E7), (0xB3, 0x5268E236),
      (0xE1, 0xD70DD2EE)] }

theorem witness_HelloWorldHasItsCrc32 :
    crc32Engine.configured = true ∧
      crc32Engine.params = ⟨32, true, true, 0x04C11DB7, 0xFFFFFFFF, 0xFFFFFFFF⟩ ∧
      crc32Engine.accumulate = 0xFFFFFFFF ∧
      crc32Engine.tableRead 0x97 = 0x6E6B06E7 ∧ crc32Engine.tableRead 0x7D = 0x2EB40D81 ∧
      crc32Engine.tableRead 0x14 = 0x1ADAD47D ∧ crc32Engine.tableRead 0x88 = 0xE3630B12 ∧
      crc32Engine.tableRead 0x73 = 0xC90C2086 ∧ crc32Engine.tableRead 0x59 = 0x12B7E950 ∧
      crc32Engine.tableRead 0x7E = 0xB7BD5C3B ∧ crc32Engine.tableRead 0x52 = 0x856530D8 ∧
      crc32Engine.tableRead 0xE1 = 0xD70DD2EE ∧ crc32Engine.tableRead 0x53 = 0xF262004E ∧
      crc32Engine.tableRead 0x5B = 0xFCB9887C ∧ crc32Engine.tableRead 0xB3 = 0x5268E236 ∧
      crc32Engine.tableRead 0x2A = 0xDBBBC9D6 := by decide

end Sys2Proof.Tests
end

section
/-! The command index (10_state.md R21): no command moves it, and a fetch moves it by one. -/

namespace Sys2Proof.Machine

/-- No command changes the command index: the register writes and the result port leave it alone
(R21). -/
theorem exec_keeps_commandIndex {i : Instr} {s t : State} (h : exec i s = .next t) :
    t.commandIndex = s.commandIndex := by
  obtain ⟨p, -, -, rfl⟩ | ⟨d, -, -, rfl⟩ | ⟨d, -, -, rfl⟩ | ⟨-, -, rfl⟩ | ⟨-, -, rfl⟩ :=
    exec_next_cases h
  · exact State.configure_commandIndex ..
  · exact State.deliver_commandIndex ..
  · simp only [State.deliver_commandIndex, State.setAccumulate_commandIndex]
  · exact State.restoreInitial_commandIndex ..
  · simp only [State.deliver_commandIndex, State.restoreInitial_commandIndex]

/-- A step advances the command index by one: moving past the frame does, and the command itself
leaves the index as it finds it (R21). -/
theorem step_advances_commandIndex {s t : State} (h : step s = .next t) :
    t.commandIndex = s.commandIndex + 1 := by
  obtain ⟨i, rest, -, hexec⟩ := step_next_cases h
  calc t.commandIndex
      = (s.consume rest).commandIndex := exec_keeps_commandIndex hexec
    _ = s.commandIndex + 1 := State.consume_commandIndex ..

/-- Settles O8, from what a fetch and what each command does to the index. -/
theorem commandIndexAdvancesByOnePerCommand : Obligations.CommandIndexAdvancesByOnePerCommand :=
  ⟨fun _ _ => step_advances_commandIndex, fun _ _ _ => exec_keeps_commandIndex⟩

end Sys2Proof.Machine
end

section
/-! The frame of a well-formed command decodes to that command (30_encoding.md R38 to R42). A frame is
its opcode byte and the bytes behind it; each format is read back from those bytes. -/

namespace Sys2Proof.Machine

/-! ## Format D: LEN, then the data bytes -/

/-- The bytes of a format D frame (R38, R39). -/
theorem encodeData_eq_cons (op : Byte) {data : List Byte} (h : lenLegal data = true) :
    encodeData op data = op :: (leBytes 4 data.length ++ data) := by
  have hlen : data.length < 2 ^ 32 := of_decide_eq_true h
  have hop := op.isLt
  have hlow : BitVec.ofNat 8 (op.toNat + data.length * 2 ^ 8) = op := by
    apply BitVec.eq_of_toNat_eq
    rw [BitVec.toNat_ofNat]
    omega
  have hhigh : (op.toNat + data.length * 2 ^ 8) / 256 = data.length := by omega
  rw [encodeData, toNat_dataHeader op data hlen, leBytes, hlow, hhigh, List.cons_append]

/-- The LEN field reads back the length that was written (R38, R42). -/
theorem lenField_leBytes {n : Nat} (h : n < 2 ^ 32) : lenField (leBytes 4 n) = n := by
  have h256 : (256 : Nat) ^ 4 = 2 ^ 32 := rfl
  rw [lenField, leNat_leBytes, BitVec.toNat_ofNat, h256, Nat.mod_mod, Nat.mod_eq_of_lt h]

/-- Behind the opcode byte of a format D frame the decoder takes LEN and exactly LEN data bytes
(R42). -/
theorem decodeData_leBytes_append (mk : List Byte → Instr) {data : List Byte} (rest : List Byte)
    (h : lenLegal data = true) :
    decodeData mk (leBytes 4 data.length ++ (data ++ rest)) = .ok (mk data, rest) := by
  have hlen : data.length < 2 ^ 32 := of_decide_eq_true h
  have hheader : (leBytes 4 data.length).length = 4 := length_leBytes 4 _
  have htake : (leBytes 4 data.length ++ (data ++ rest)).take 4 = leBytes 4 data.length :=
    List.take_left' hheader
  have hdrop : (leBytes 4 data.length ++ (data ++ rest)).drop 4 = data ++ rest :=
    List.drop_left' hheader
  simp [decodeData, htake, hdrop, lenField_leBytes hlen]

/-! ## Format P: the 216 bits of an INIT frame -/

/-- A bit field that holds the number `v` is `v`. -/
theorem extractLsb'_eq_of_toNat {m : Nat} {f : BitVec m} {start n : Nat} {v : BitVec n}
    (h : f.toNat / 2 ^ start % 2 ^ n = v.toNat) : f.extractLsb' start n = v := by
  apply BitVec.eq_of_toNat_eq
  rw [BitVec.extractLsb'_toNat, Nat.shiftRight_eq_div_pow, h]

/-- A bit of a number that holds the flag `b` is `b`. -/
theorem getLsbD_eq_of_toNat {m : Nat} {f : BitVec m} {i : Nat} {b : Bool}
    (h : f.toNat / 2 ^ i % 2 = b.toNat) : f.getLsbD i = b := by
  rw [← BitVec.testBit_toNat, Nat.testBit_eq_decide_div_mod_eq, h]
  cases b <;> rfl

/-- The fields of the frame of a record are the record's (R38). -/
theorem initFields_initFrame (p : Params) : initFields (initFrame p) = p := by
  have hf := toNat_initFrame p
  have hw := p.width.isLt
  have hi := p.inputReflected.toNat_lt
  have hr := p.resultReflected.toNat_lt
  have hp := p.polynomial.isLt
  have hv := p.initialValue.isLt
  have hx := p.finalXorValue.isLt
  rw [initFields, extractLsb'_eq_of_toNat (v := p.width) (by omega),
    getLsbD_eq_of_toNat (b := p.inputReflected) (by omega),
    getLsbD_eq_of_toNat (b := p.resultReflected) (by omega),
    extractLsb'_eq_of_toNat (v := p.polynomial) (by omega),
    extractLsb'_eq_of_toNat (v := p.initialValue) (by omega),
    extractLsb'_eq_of_toNat (v := p.finalXorValue) (by omega)]

/-- The reserved bits 23:18 of the frame of a record are 0 (R38, R44). -/
theorem initFrame_reserved (p : Params) : (initFrame p).extractLsb' 18 6 = 0 := by
  have hf := toNat_initFrame p
  have hw := p.width.isLt
  have hi := p.inputReflected.toNat_lt
  have hr := p.resultReflected.toNat_lt
  have h0 : (0 : BitVec 6).toNat = 0 := rfl
  apply extractLsb'_eq_of_toNat
  omega

/-- The bytes of a format P frame (R38, R39). -/
theorem encode_init_eq_cons (p : Params) :
    encode (.init p) = Opcode.init :: leBytes 26 ((initFrame p).toNat / 256) := by
  obtain ⟨hop, -⟩ := Laws.Framing.init p
  rw [encode, leBytes, List.head?_cons, Option.some_inj] at hop
  rw [encode, leBytes, hop, Instr.opcode]

/-- The bytes of a format P frame stand for its 216 bits (R39). -/
theorem ofNat_leNat_encode_init (p : Params) :
    BitVec.ofNat 216 (leNat (encode (.init p))) = initFrame p := by
  have hlt : (initFrame p).toNat < 256 ^ 27 := (initFrame p).isLt
  rw [encode, leNat_leBytes, Nat.mod_eq_of_lt hlt, BitVec.ofNat_toNat, BitVec.setWidth_eq]

/-- Behind the opcode byte of a well-formed INIT frame the decoder takes the record (R41, R44). -/
theorem decodeInit_leBytes_append {p : Params} (rest : List Byte) (h : p.widthLegal = true) :
    decodeInit (leBytes 26 ((initFrame p).toNat / 256) ++ rest) = .ok (.init p, rest) := by
  have hbody : (leBytes 26 ((initFrame p).toNat / 256)).length = 26 := length_leBytes 26 _
  have hframe := ofNat_leNat_encode_init p
  rw [encode_init_eq_cons] at hframe
  simp [decodeInit, List.take_left' hbody, List.drop_left' hbody, hframe, initFields_initFrame,
    initFrame_reserved, h]

/-! ## Every format -/

/-- The decoder undoes the encoder on every well-formed command and leaves the bytes behind the frame
for the next one (R38 to R42). -/
theorem decode_encode_append {i : Instr} (rest : List Byte) (h : i.wellFormed = true) :
    decode (encode i ++ rest) = .ok (i, rest) := by
  cases i with
  | init p =>
    rw [encode_init_eq_cons]
    exact decodeInit_leBytes_append rest h
  | calculate data =>
    rw [encode, encodeData_eq_cons _ h, List.cons_append, List.append_assoc]
    exact decodeData_leBytes_append .calculate rest h
  | accum data =>
    rw [encode, encodeData_eq_cons _ h, List.cons_append, List.append_assoc]
    exact decodeData_leBytes_append .accum rest h
  | reset => rfl
  | get => rfl

/-- A step on the frame of a well-formed command executes that command past its frame (R33, R37). -/
theorem step_of_pending_eq_encode {i : Instr} {s : State} {rest : List Byte}
    (hi : i.wellFormed = true) (hp : s.pending = encode i ++ rest) :
    step s = exec i (s.consume rest) := by
  rw [step, State.fetch, hp, decode_encode_append rest hi]

end Sys2Proof.Machine
end

section
/-! Commands neither read nor write the command port and the command index, so running the frames of a
command sequence executes the commands in order (20_memory.md R33). -/

namespace Sys2Proof.Machine

/-! ## The host's side of the machine -/

/-- The same engine with other bytes on the command port and another command index. -/
def State.withPort (s : State) (bytes : List Byte) (index : Nat) : State :=
  { s with pending := bytes, commandIndex := index }

theorem State.consume_eq_withPort (s : State) (rest : List Byte) :
    s.consume rest = s.withPort rest (s.commandIndex + 1) := rfl

@[simp] theorem State.withPort_pending (s : State) (bytes : List Byte) (n : Nat) :
    (s.withPort bytes n).pending = bytes := rfl

@[simp] theorem State.withPort_commandIndex (s : State) (bytes : List Byte) (n : Nat) :
    (s.withPort bytes n).commandIndex = n := rfl

@[simp] theorem State.withPort_withPort (s : State) (bytes bytes' : List Byte) (n n' : Nat) :
    (s.withPort bytes n).withPort bytes' n' = s.withPort bytes' n' := rfl

@[simp] theorem State.withPort_self (s : State) : s.withPort s.pending s.commandIndex = s := rfl

/-- The guard of CALC, ACCUM, RESET and GET looks at no part of the host's side (R103). -/
theorem State.ifConfigured_withPort {k : State → Host.Outcome State Fault Refusal} {s : State}
    {bytes : List Byte} {n : Nat} (hk : k (s.withPort bytes n) = mapNext (·.withPort bytes n) (k s)) :
    (s.withPort bytes n).ifConfigured k = mapNext (·.withPort bytes n) (s.ifConfigured k) := by
  cases hc : s.configured with
  | true =>
    have hc' : (s.withPort bytes n).configured = true := hc
    rw [State.ifConfigured_true k hc, State.ifConfigured_true k hc', hk]
  | false =>
    have hc' : (s.withPort bytes n).configured = false := hc
    rw [State.ifConfigured_false k hc, State.ifConfigured_false k hc', mapNext]

/-- A command does the same whatever stands on the command port, and leaves the port and the index as
they are, refusals included (R33). -/
theorem exec_withPort (i : Instr) (s : State) (bytes : List Byte) (n : Nat) :
    exec i (s.withPort bytes n) = mapNext (·.withPort bytes n) (exec i s) := by
  cases i with
  | init p =>
    rw [exec, exec, execInit, execInit]
    split <;> rfl
  | calculate data =>
    rw [exec, exec, execCalc, execCalc]
    exact State.ifConfigured_withPort rfl
  | accum data =>
    rw [exec, exec, execAccum, execAccum]
    exact State.ifConfigured_withPort rfl
  | reset =>
    rw [exec, exec, execReset, execReset]
    exact State.ifConfigured_withPort rfl
  | get =>
    rw [exec, exec, execGet, execGet]
    exact State.ifConfigured_withPort rfl

/-! ## Sequences -/

/-- What a sequence of commands does to the engine does not depend on the host's side (R33). -/
theorem runCommands_withPort (is : List Instr) (s : State) (bytes : List Byte) (n : Nat) :
    runCommands is (s.withPort bytes n) = mapNext (·.withPort bytes n) (runCommands is s) := by
  induction is generalizing s with
  | nil => rfl
  | cons i is ih =>
    rw [runCommands, runCommands, exec_withPort]
    cases exec i s with
    | next t => exact ih t
    | fault r => rfl
    | refused r => rfl

/-- Only the last change of the host's side counts. -/
theorem mapNext_withPort_mapNext_withPort (o : Host.Outcome State Fault Refusal)
    (bytes bytes' : List Byte) (n n' : Nat) :
    mapNext (·.withPort bytes' n') (mapNext (·.withPort bytes n) o) =
      mapNext (·.withPort bytes' n') o := by
  cases o <;> rfl

/-- A run whose first step answers a next state goes on from there. -/
theorem run_succ_of_step_next {s t : State} (h : step s = .next t) (k : Nat) :
    Host.Core.run core (k + 1) s = Host.Core.run core k t := by
  have hcore : core.step s = .next t := h
  refine (run_succ core k s).trans ?_
  rw [hcore]

/-- A run whose first step is refused is refused. -/
theorem run_succ_of_step_refused {s : State} {r : Refusal} (h : step s = .refused r) (k : Nat) :
    Host.Core.run core (k + 1) s = .refused r := by
  have hcore : core.step s = .refused r := h
  refine (run_succ core k s).trans ?_
  rw [hcore]

/-- Running the frames of a sequence of well-formed commands executes the commands in order, leaves the
bytes behind the frames and advances the index by one per command (R21, R33). -/
theorem run_encodeAll_append (is : List Instr) (s : State) (rest : List Byte)
    (hwf : ∀ i ∈ is, i.wellFormed = true) (hp : s.pending = encodeAll is ++ rest) :
    Host.Core.run core is.length s =
      mapNext (·.withPort rest (s.commandIndex + is.length)) (runCommands is s) := by
  induction is generalizing s with
  | nil =>
    have hrest : s.pending = rest := hp
    subst hrest
    rfl
  | cons i is ih =>
    obtain ⟨hi, his⟩ := List.forall_mem_cons.mp hwf
    rw [encodeAll, List.append_assoc] at hp
    have hstep : step s =
        mapNext (·.withPort (encodeAll is ++ rest) (s.commandIndex + 1)) (exec i s) := by
      rw [step_of_pending_eq_encode hi hp, State.consume_eq_withPort, exec_withPort]
    rw [List.length_cons, runCommands]
    cases he : exec i s with
    | next t =>
      have hindex : s.commandIndex + 1 + is.length = s.commandIndex + (is.length + 1) := by omega
      rw [he, mapNext] at hstep
      rw [run_succ_of_step_next hstep, ih _ his rfl, runCommands_withPort,
        mapNext_withPort_mapNext_withPort, State.withPort_commandIndex, hindex]
    | fault r => exact nomatch r
    | refused r =>
      rw [he, mapNext] at hstep
      exact run_succ_of_step_refused hstep _

/-- Settles O11, by induction over the sequence: each step decodes one frame, and its command does the
same to the engine whatever bytes are still on the command port. -/
theorem runOfFramesExecutesTheCommandsInOrder : Obligations.RunOfFramesExecutesTheCommandsInOrder :=
  run_encodeAll_append

end Sys2Proof.Machine
end

section
/-! The bytes of a frame are its bits, eight at a time from bit 0 upwards (30_encoding.md R38, R39). -/

namespace Sys2Proof.Machine

/-- Byte `k` of an INIT frame, by the numbers in its fields (R38 format P, R39). -/
theorem getElem?_encode_init (p : Params) {k : Nat} (hk : k < 27) :
    (encode (.init p))[k]? = some (BitVec.ofNat 8
      ((1 + p.width.toNat * 2 ^ 8 + p.inputReflected.toNat * 2 ^ 16 +
        p.resultReflected.toNat * 2 ^ 17 + p.polynomial.toNat * 2 ^ 24 +
        p.initialValue.toNat * 2 ^ 88 + p.finalXorValue.toNat * 2 ^ 152) / 2 ^ (8 * k))) := by
  rw [encode, getElem?_leBytes _ _ _ hk, toNat_initFrame]

/-- A format D frame is a 5-byte header, opcode and LEN by their bits, and the data behind it
(R38 format D, R39). -/
theorem encodeData_eq_header_append (op : Byte) {data : List Byte} (h : data.length < 2 ^ 32) :
    ∃ header, header.length = 5 ∧ encodeData op data = header ++ data ∧
      ∀ k < 5, header[k]? = some (BitVec.ofNat 8 ((op.toNat + data.length * 2 ^ 8) / 2 ^ (8 * k))) := by
  refine ⟨leBytes 5 (dataHeader op data).toNat, length_leBytes 5 _, rfl, fun k hk => ?_⟩
  rw [getElem?_leBytes _ _ _ hk, toNat_dataHeader op data h]

/-- Settles O2, from the bytes of a serialised number and the frames' bits as numbers. -/
theorem frameBytesAreTheFrameBitsInOrder : Obligations.FrameBytesAreTheFrameBitsInOrder :=
  ⟨fun p => ⟨(Laws.Framing.init p).2, fun _ hk => getElem?_encode_init p hk⟩,
    fun _ h => ⟨encodeData_eq_header_append Opcode.calc h, encodeData_eq_header_append Opcode.accum h⟩,
    rfl, rfl⟩

end Sys2Proof.Machine
end

section
/-! Bytes that give no command: the step is refused, and no run goes past them (30_encoding.md R43). -/

namespace Sys2Proof.Machine

/-- A step on bytes the decoder gives no command for is refused (R43, R44). -/
theorem step_of_decode_error {s : State} {e : DecodeError} (h : decode s.pending = .error e) :
    step s = .refused (refusalOf e) := by
  rw [step, State.fetch, h]

/-- A reserved opcode byte gets the verdict "reserved", whatever follows (R43). -/
theorem decode_reservedOpcode {op : Byte} (rest : List Byte) (h : op = 0 ∨ 6 ≤ op.toNat) :
    decode (op :: rest) = .error (.reservedOpcode op) := by
  have hne : ∀ c : Byte, 1 ≤ c.toNat → c.toNat ≤ 5 → op ≠ c := by
    rintro c hlow hhigh rfl
    obtain rfl | hop := h
    · exact absurd hlow (by decide)
    · omega
  rw [decode, if_neg (hne Opcode.init (by decide) (by decide)),
    if_neg (hne Opcode.calc (by decide) (by decide)),
    if_neg (hne Opcode.accum (by decide) (by decide)),
    if_neg (hne Opcode.reset (by decide) (by decide)),
    if_neg (hne Opcode.get (by decide) (by decide))]

/-- A step with a reserved opcode byte in front is refused (R43). -/
theorem step_reservedOpcode {op : Byte} {rest : List Byte} {s : State} (h : op = 0 ∨ 6 ≤ op.toNat)
    (hp : s.pending = op :: rest) : step s = .refused (.reservedOpcode op) := by
  refine step_of_decode_error (e := .reservedOpcode op) ?_
  rw [hp, decode_reservedOpcode rest h]

/-- A run that completes has completed its first `m` steps, and then the others. -/
theorem exists_run_of_run_add_next {m k : Nat} {s t : State}
    (h : Host.Core.run core (m + k) s = .next t) :
    ∃ u, Host.Core.run core m s = .next u ∧ Host.Core.run core k u = .next t := by
  induction m generalizing s with
  | zero => exact ⟨s, rfl, by rwa [Nat.zero_add] at h⟩
  | succ m ih =>
    rw [Nat.add_right_comm] at h
    cases hs : step s with
    | next v =>
      rw [run_succ_of_step_next hs] at h
      obtain ⟨u, hm, hk⟩ := ih h
      exact ⟨u, (run_succ_of_step_next hs m).trans hm, hk⟩
    | fault r => exact nomatch r
    | refused r =>
      rw [run_succ_of_step_refused hs] at h
      cases h

/-- Where the frames of a sequence have been run, the bytes behind them are at the front of the port
(R42). -/
theorem pending_of_run_encodeAll {is : List Instr} {s u : State} {rest : List Byte}
    (hwf : ∀ i ∈ is, i.wellFormed = true) (hp : s.pending = encodeAll is ++ rest)
    (h : Host.Core.run core is.length s = .next u) : u.pending = rest := by
  rw [run_encodeAll_append is s rest hwf hp] at h
  cases hr : runCommands is s with
  | next v =>
    rw [hr] at h
    cases h
    rfl
  | fault r => exact nomatch r
  | refused r =>
    rw [hr] at h
    cases h

/-- No run gets past a reserved opcode byte, however many commands stand before it (R43). -/
theorem run_ne_next_of_reservedOpcode {op : Byte} {rest : List Byte} (hop : op = 0 ∨ 6 ≤ op.toNat)
    {is : List Instr} {s t : State} {n : Nat} (hwf : ∀ i ∈ is, i.wellFormed = true)
    (hp : s.pending = encodeAll is ++ op :: rest) (hn : is.length < n) :
    Host.Core.run core n s ≠ .next t := by
  intro h
  obtain ⟨k, rfl⟩ := Nat.exists_eq_add_of_lt hn
  obtain ⟨u, hframes, hpast⟩ := exists_run_of_run_add_next (m := is.length) (k := k + 1) h
  have hstep := step_reservedOpcode hop (pending_of_run_encodeAll hwf hp hframes)
  rw [run_succ_of_step_refused hstep] at hpast
  cases hpast

/-- Settles O5: the frames in front are run in order, and the step after them meets the reserved
byte. -/
theorem reservedOpcodesAreRefused : Obligations.ReservedOpcodesAreRefused :=
  fun _ rest hop => ⟨decode_reservedOpcode rest hop, fun _ hp => step_reservedOpcode hop hp,
    fun _ _ _ _ hwf hp hn => run_ne_next_of_reservedOpcode hop hwf hp hn⟩

end Sys2Proof.Machine
end

section
/-! Which 27-byte frames with INIT's opcode are an INIT: WIDTH and the reserved bits alone decide
(30_encoding.md R44). -/

namespace Sys2Proof.Machine

/-- The legal widths are the multiples of 8 from 8 to 64 (R7). -/
theorem mem_widths_iff (w : Nat) : w ∈ Config.widths ↔ 8 ∣ w ∧ 8 ≤ w ∧ w ≤ 64 := by
  simp only [Config.widths, List.mem_cons, List.not_mem_nil, or_false]
  omega

/-- The 216 bits of the frame that has these bytes behind INIT's opcode byte (R38, R39). -/
def initBits (body : List Byte) : BitVec 216 := BitVec.ofNat 216 (leNat (Opcode.init :: body))

/-- The decoder's checks on a whole INIT frame, by its bits: WIDTH, then the reserved bits (R44). -/
theorem decode_init_append {body : List Byte} (rest : List Byte) (hlen : body.length = 26) :
    decode (Opcode.init :: (body ++ rest)) =
      if !(initFields (initBits body)).widthLegal then
        .error (.illegalWidth (initFields (initBits body)).width)
      else if (initBits body).extractLsb' 18 6 ≠ 0 then .error .reservedBitsSet
      else .ok (.init (initFields (initBits body)), rest) := by
  have hwhole : ¬ (body ++ rest).length < 26 := by
    rw [List.length_append]
    omega
  rw [decode, if_pos rfl, decodeInit, if_neg hwhole, List.take_left' hlen, List.drop_left' hlen]
  rfl

/-- The decoder's verdict on a whole INIT frame: the record of its fields where WIDTH is legal and the
reserved bits are 0, an error otherwise (R44). -/
theorem decode_init_cases {body : List Byte} (rest : List Byte) (hlen : body.length = 26) :
    (((initFields (initBits body)).widthLegal = true ∧ (initBits body).extractLsb' 18 6 = 0) ∧
      decode (Opcode.init :: (body ++ rest)) = .ok (.init (initFields (initBits body)), rest)) ∨
    (¬ ((initFields (initBits body)).widthLegal = true ∧ (initBits body).extractLsb' 18 6 = 0) ∧
      ∃ e, decode (Opcode.init :: (body ++ rest)) = .error e) := by
  rw [decode_init_append rest hlen]
  by_cases hw : (initFields (initBits body)).widthLegal = true
  · rw [if_neg (by simp [hw])]
    by_cases hr : (initBits body).extractLsb' 18 6 = 0
    · exact .inl ⟨⟨hw, hr⟩, if_neg (not_not.mpr hr)⟩
    · exact .inr ⟨fun h => hr h.2, .reservedBitsSet, if_pos hr⟩
  · exact .inr ⟨fun h => hw h.1, .illegalWidth _, if_pos (by simpa using hw)⟩

/-- The bits of an INIT frame as a number, by its bytes (R38, R39). -/
theorem toNat_initBits (width flags : Byte) {values : List Byte} (hlen : values.length = 24) :
    (initBits (width :: flags :: values)).toNat =
      1 + width.toNat * 2 ^ 8 + flags.toNat * 2 ^ 16 + leNat values * 2 ^ 24 := by
  have hv : leNat values < 256 ^ 24 := hlen ▸ leNat_lt values
  have h1 : Opcode.init.toNat = 1 := rfl
  rw [initBits, leNat, leNat, leNat, BitVec.toNat_ofNat, h1]
  omega

/-- WIDTH is the frame's second byte (R38). -/
theorem initFields_initBits_width (width flags : Byte) {values : List Byte}
    (hlen : values.length = 24) :
    (initFields (initBits (width :: flags :: values))).width = width := by
  have hf := toNat_initBits width flags hlen
  have hw := width.isLt
  exact extractLsb'_eq_of_toNat (by omega)

/-- The reserved bits 23:18 are bits 7:2 of the frame's third byte (R38). -/
theorem initBits_reserved_eq_zero_iff (width flags : Byte) {values : List Byte}
    (hlen : values.length = 24) :
    (initBits (width :: flags :: values)).extractLsb' 18 6 = 0 ↔ flags.toNat / 4 = 0 := by
  have hf := toNat_initBits width flags hlen
  have hw := width.isLt
  have hfl := flags.isLt
  have h0 : (0 : BitVec 6).toNat = 0 := rfl
  rw [← BitVec.toNat_inj, BitVec.extractLsb'_toNat, Nat.shiftRight_eq_div_pow, h0]
  omega

/-- R44's two conditions on the fields are the two conditions on the frame's second and third byte. -/
theorem initBits_wellFormed_iff (width flags : Byte) {values : List Byte}
    (hlen : values.length = 24) :
    ((initFields (initBits (width :: flags :: values))).widthLegal = true ∧
      (initBits (width :: flags :: values)).extractLsb' 18 6 = 0) ↔
    (8 ∣ width.toNat ∧ 8 ≤ width.toNat ∧ width.toNat ≤ 64) ∧ flags.toNat / 4 = 0 := by
  rw [Params.widthLegal, decide_eq_true_iff, mem_widths_iff, initFields_initBits_width _ _ hlen,
    initBits_reserved_eq_zero_iff _ _ hlen]

/-- Settles O6, from the decoder's verdict on a whole frame and what its bytes say of its fields. -/
theorem initFrameIsAcceptedExactlyWhenWellFormed :
    Obligations.InitFrameIsAcceptedExactlyWhenWellFormed := by
  intro width flags values rest hlen
  have hbody : (width :: flags :: values).length = 26 := by
    rw [List.length_cons, List.length_cons, hlen]
  rw [← initBits_wellFormed_iff width flags hlen]
  obtain ⟨hwf, hok⟩ | ⟨hmal, e, herr⟩ := decode_init_cases rest hbody
  · exact ⟨⟨fun _ => hwf, fun _ => ⟨_, hok⟩⟩, fun hmal => absurd hwf hmal⟩
  · refine ⟨⟨fun ⟨p, hok⟩ => ?_, fun hwf => absurd hwf hmal⟩, fun _ s hp => ?_⟩
    · cases herr.symm.trans hok
    · exact ⟨_, step_of_decode_error ((congrArg decode hp).trans herr)⟩

end Sys2Proof.Machine
end

section
/-! What each command puts on the result port (30_encoding.md R45). -/

namespace Sys2Proof.Machine

/-- A command that delivers one w-bit value on a fitting engine delivers it zero-extended (R45). -/
theorem singleton_zeroExtended {s : State} {v : Word} (h : RegistersFit s → fits s.w v) :
    RegistersFit s → ∀ x ∈ [v], ∀ k, s.w ≤ k → x.getLsbD k = false := by
  intro hs x hx k hk
  obtain rfl := List.mem_singleton.mp hx
  exact getLsbD_of_fits (h hs) hk

/-- Settles O16, command by command: the datapath's visible value and ACCUMULATE XOR FINAL_XOR_VALUE
are w-bit values on w-bit registers. -/
theorem eachCommandDeliversItsResults : Obligations.EachCommandDeliversItsResults := by
  intro i s t h
  obtain ⟨p, rfl, -, rfl⟩ | ⟨d, rfl, -, rfl⟩ | ⟨d, rfl, -, rfl⟩ | ⟨rfl, -, rfl⟩ | ⟨rfl, -, rfl⟩ :=
    exec_next_cases h
  · exact ⟨[], (List.append_nil _).symm, rfl, by simp⟩
  · exact ⟨_, State.deliver_results .., rfl, singleton_zeroExtended fun hs =>
      (fits_process d hs.initialValue hs.finalXorValue).2⟩
  · exact ⟨_, State.deliver_results .., rfl, singleton_zeroExtended fun hs =>
      (fits_process d hs.accumulate hs.finalXorValue).2⟩
  · exact ⟨[], (List.append_nil _).symm, rfl, by simp⟩
  · exact ⟨_, State.deliver_results .., rfl, singleton_zeroExtended fun hs =>
      fits_xor hs.accumulate hs.finalXorValue⟩

end Sys2Proof.Machine
end

section
/-! What INIT does with a legal record (40_configuration.md R50): it completes and loads the record
truncated to the record's own WIDTH. -/

namespace Sys2Proof.Machine

/-- INIT with a legal WIDTH completes on every engine, configured or not, and writes the seven
registers only (R50, R51 (a)). -/
theorem exec_init_of_mem_widths {p : Params} (s : State) (h : p.width.toNat ∈ Config.widths) :
    exec (.init p) s = .next (s.configure (truncParams p) (truncParams p).initialValue) :=
  if_pos (decide_eq_true h)

/-! The fields of the loaded record: WIDTH and the flags as the frame gives them, the value fields
modulo `2^n` (R9, R41). -/

@[simp] theorem truncParams_width (p : Params) : (truncParams p).width = p.width := rfl

@[simp] theorem truncParams_inputReflected (p : Params) :
    (truncParams p).inputReflected = p.inputReflected := rfl

@[simp] theorem truncParams_resultReflected (p : Params) :
    (truncParams p).resultReflected = p.resultReflected := rfl

@[simp] theorem toNat_truncParams_polynomial (p : Params) :
    (truncParams p).polynomial.toNat = p.polynomial.toNat % 2 ^ p.width.toNat :=
  toNat_trunc ..

@[simp] theorem toNat_truncParams_initialValue (p : Params) :
    (truncParams p).initialValue.toNat = p.initialValue.toNat % 2 ^ p.width.toNat :=
  toNat_trunc ..

@[simp] theorem toNat_truncParams_finalXorValue (p : Params) :
    (truncParams p).finalXorValue.toNat = p.finalXorValue.toNat % 2 ^ p.width.toNat :=
  toNat_trunc ..

/-- Settles O17, from the state INIT completes in: the truncated record gives the seven registers, the
field lemmas of `State.configure` the rest of the state, and the framing law the opcode byte. -/
theorem initLoadsTheRecordTruncatedToItsWidth :
    Obligations.InitLoadsTheRecordTruncatedToItsWidth := by
  constructor
  · intro p s hw
    refine ⟨_, exec_init_of_mem_widths s hw, ?_⟩
    simp only [State.configure_params, truncParams_width, truncParams_inputReflected,
      truncParams_resultReflected, toNat_truncParams_polynomial, toNat_truncParams_initialValue,
      toNat_truncParams_finalXorValue, State.configure_accumulate, State.configure_configured,
      State.configure_results, State.configure_table, State.configure_tableRead,
      State.configure_pending, State.configure_commandIndex, implies_true, and_self]
  · intro p
    obtain ⟨hop, -⟩ := Laws.Framing.init p
    exact hop

end Sys2Proof.Machine
end

section
/-! The bit_reflection_unit (41_reflection_unit.md): which bit of the value each bit of a reversal is
(R54), and the laws that follow bit by bit (R55). -/

namespace Sys2Proof.Machine

/-! ## The bits of a reversal -/

/-- Bit `i` of an n-bit reversal is bit `n-1-i` of the value, and there is no bit at position `n` or
above (R54). -/
theorem getLsbD_reverseBits {n : Nat} (hn : n ≤ 64) (v : Word) (i : Nat) :
    (reverseBits v n).getLsbD i = (decide (i < n) && v.getLsbD (n - 1 - i)) := by
  by_cases hi : i < 64
  · rw [reverseBits, getLsbD_reverseLoop n 0 v i hi]
    by_cases h : i < n <;> simp [h]
  · have h : ¬ i < n := by omega
    simp [h, BitVec.getLsbD_of_ge _ i (Nat.not_lt.mp hi)]

theorem getLsbD_reverseBits_of_lt {n i : Nat} (hn : n ≤ 64) (v : Word) (hi : i < n) :
    (reverseBits v n).getLsbD i = v.getLsbD (n - 1 - i) := by
  rw [getLsbD_reverseBits hn, decide_eq_true hi, Bool.true_and]

theorem getLsbD_reverseBits_of_ge {n i : Nat} (hn : n ≤ 64) (v : Word) (hi : n ≤ i) :
    (reverseBits v n).getLsbD i = false := by
  rw [getLsbD_reverseBits hn, decide_eq_false (Nat.not_lt.mpr hi), Bool.false_and]

/-- An n-bit reversal is an n-bit value. -/
theorem fits_reverseBits {n : Nat} (hn : n ≤ 64) (v : Word) : fits n (reverseBits v n) :=
  fits_of_getLsbD fun _ hi => getLsbD_reverseBits_of_ge hn v hi

/-- Two n-bit values with the same low `n` bits are equal. -/
theorem eq_of_fits_of_getLsbD_eq {n : Nat} {a b : Word} (ha : fits n a) (hb : fits n b)
    (h : ∀ i < n, a.getLsbD i = b.getLsbD i) : a = b := by
  apply BitVec.eq_of_getLsbD_eq
  intro i _
  by_cases hi : i < n
  · exact h i hi
  · rw [getLsbD_of_fits ha (by omega), getLsbD_of_fits hb (by omega)]

/-- To know an n-bit reversal it is enough to know its low `n` bits, in terms of the value's. -/
theorem reverseBits_eq_of_getLsbD {n : Nat} (hn : n ≤ 64) {v r : Word} (hr : fits n r)
    (h : ∀ i < n, v.getLsbD (n - 1 - i) = r.getLsbD i) : reverseBits v n = r :=
  eq_of_fits_of_getLsbD_eq (fits_reverseBits hn v) hr fun i hi => by
    rw [getLsbD_reverseBits_of_lt hn v hi, h i hi]

/-- A bit as a number is a digit of the quotient by a power of two. -/
theorem toNat_getLsbD (v : Word) (i : Nat) : (v.getLsbD i).toNat = v.toNat / 2 ^ i % 2 :=
  Nat.toNat_testBit v.toNat i

/-- The bits of the value at position `n` and above have no influence (R54). -/
theorem reverseBits_trunc {n : Nat} (hn : n ≤ 64) (v : Word) :
    reverseBits (trunc n v) n = reverseBits v n := by
  refine reverseBits_eq_of_getLsbD hn (fits_reverseBits hn v) fun i hi => ?_
  have hlow : n - 1 - i < n := by omega
  rw [getLsbD_trunc, decide_eq_true hlow, Bool.true_and, getLsbD_reverseBits_of_lt hn v hi]

/-- Settles O28, from the bits of a reversal read as binary digits. -/
theorem reverseBitsClosedForm : Obligations.ReverseBitsClosedForm := by
  intro v n hn
  refine ⟨fun i hi => ?_, fun i hi => ?_, (reverseBits_trunc hn v).symm⟩
  · have hlow : n - 1 - i < n := by omega
    have hback : n - 1 - (n - 1 - i) = i := by omega
    rw [← toNat_getLsbD, ← toNat_getLsbD, getLsbD_reverseBits_of_lt hn v hlow, hback]
  · rw [← toNat_getLsbD, getLsbD_reverseBits_of_ge hn v hi, Bool.toNat_false]

/-! ## The laws of R55 -/

/-- Reversing twice gives an n-bit value back (R55 (a)). -/
theorem reverseBits_reverseBits {n : Nat} (hn : n ≤ 64) {v : Word} (hv : fits n v) :
    reverseBits (reverseBits v n) n = v := by
  refine reverseBits_eq_of_getLsbD hn hv fun i hi => ?_
  have hlow : n - 1 - i < n := by omega
  have hback : n - 1 - (n - 1 - i) = i := by omega
  rw [getLsbD_reverseBits_of_lt hn v hlow, hback]

/-- Zero reads the same in both directions (R55 (b)). -/
theorem reverseBits_zero {n : Nat} (hn : n ≤ 64) : reverseBits 0 n = 0 :=
  reverseBits_eq_of_getLsbD hn (Nat.two_pow_pos n) fun _ _ =>
    BitVec.getLsbD_zero.trans BitVec.getLsbD_zero.symm

theorem toNat_ofNat_two_pow_sub_one {n : Nat} (hn : n ≤ 64) :
    (BitVec.ofNat 64 (2 ^ n - 1)).toNat = 2 ^ n - 1 := by
  have hpos := Nat.two_pow_pos n
  have hle : 2 ^ n ≤ 2 ^ 64 := Nat.pow_le_pow_right (by decide) hn
  rw [BitVec.toNat_ofNat, Nat.mod_eq_of_lt (by omega)]

/-- The value with `n` ones reads the same in both directions (R55 (b)). -/
theorem reverseBits_allOnes {n : Nat} (hn : n ≤ 64) :
    reverseBits (BitVec.ofNat 64 (2 ^ n - 1)) n = BitVec.ofNat 64 (2 ^ n - 1) := by
  have hbit : ∀ i < n, (BitVec.ofNat 64 (2 ^ n - 1)).getLsbD i = true := by
    intro i hi
    rw [← BitVec.testBit_toNat, toNat_ofNat_two_pow_sub_one hn, Nat.testBit_two_pow_sub_one,
      decide_eq_true hi]
  have hfits : fits n (BitVec.ofNat 64 (2 ^ n - 1)) := by
    rw [fits, toNat_ofNat_two_pow_sub_one hn]
    exact Nat.sub_lt (Nat.two_pow_pos n) Nat.one_pos
  refine reverseBits_eq_of_getLsbD hn hfits fun i hi => ?_
  rw [hbit i hi, hbit (n - 1 - i) (by omega)]

/-- The empty reversal (R55 (c)). -/
theorem reverseBits_width_zero (v : Word) : reverseBits v 0 = 0 := rfl

/-- The reversal works on every bit alone, so it preserves XOR (R55 (d)). -/
theorem reverseBits_xor {n : Nat} (hn : n ≤ 64) (a b : Word) :
    reverseBits (a ^^^ b) n = reverseBits a n ^^^ reverseBits b n := by
  refine reverseBits_eq_of_getLsbD hn (fits_xor (fits_reverseBits hn a) (fits_reverseBits hn b))
    fun i hi => ?_
  rw [BitVec.getLsbD_xor, BitVec.getLsbD_xor, getLsbD_reverseBits_of_lt hn a hi,
    getLsbD_reverseBits_of_lt hn b hi]

/-- A right shift before the reversal is a left shift after it: bit `i` is bit `n-1-i+k` of the value
where `k ≤ i`, and below `k` the shifts have let zeros in (R55 (e)). -/
theorem reverseBits_ushiftRight {n : Nat} (hn : n ≤ 64) {v : Word} (k : Nat) (hv : fits n v) :
    reverseBits (v >>> k) n = trunc n (reverseBits v n <<< k) := by
  refine reverseBits_eq_of_getLsbD hn (fits_trunc n _) fun i hi => ?_
  have h64 : i < 64 := by omega
  rw [BitVec.getLsbD_ushiftRight, getLsbD_trunc, BitVec.getLsbD_shiftLeft, decide_eq_true hi,
    decide_eq_true h64, Bool.true_and, Bool.true_and]
  by_cases hk : i < k
  · rw [decide_eq_true hk, Bool.not_true, Bool.false_and, getLsbD_of_fits hv (by omega)]
  · have hsrc : k + (n - 1 - i) = n - 1 - (i - k) := by omega
    rw [decide_eq_false hk, Bool.not_false, Bool.true_and,
      getLsbD_reverseBits_of_lt hn v (by omega), hsrc]

/-- Settles O29, law by law from the bits of a reversal; (f) is a computation. -/
theorem reverseBitsLaws : Obligations.ReverseBitsLaws := by
  intro n hn
  refine ⟨fun _ hv => reverseBits_reverseBits hn hv, reverseBits_zero hn, reverseBits_allOnes hn,
    reverseBits_width_zero, reverseBits_xor hn,
    fun _ k hv _ => reverseBits_ushiftRight hn k hv, ?_, ?_⟩
  · decide
  · decide

end Sys2Proof.Machine
end

section
/-! The byte folds in unsigned arithmetic (42_datapath.md R62, R64): the operands and the table index of
each branch as numbers, then the fold they make. -/

namespace Sys2Proof.Machine

theorem toNat_entry (w : Nat) (read : Byte → Word) (i : Byte) :
    (entry w read i).toNat = (read i).toNat % 2 ^ w :=
  toNat_trunc w (read i)

/-! ## Branch A -/

theorem toNat_indexA (r : Word) (b : Byte) : (indexA r b).toNat = r.toNat % 256 ^^^ b.toNat := by
  rw [indexA, BitVec.toNat_xor, BitVec.toNat_setWidth]

/-- The table read of Branch A is at the register's low byte XOR the data byte (R62, R68). -/
theorem ofNat_eq_indexA (r : Word) (b : Byte) :
    BitVec.ofNat 8 (r.toNat % 256 ^^^ b.toNat) = indexA r b := by
  rw [← toNat_indexA, BitVec.ofNat_toNat, BitVec.setWidth_eq]

/-- `fold_A` in unsigned arithmetic (R62). -/
theorem toNat_foldA (w : Nat) (read : Byte → Word) (r : Word) (b : Byte) :
    (foldA w read r b).toNat = r.toNat / 2 ^ 8 ^^^ (read (indexA r b)).toNat % 2 ^ w := by
  rw [foldA, BitVec.toNat_xor, BitVec.toNat_ushiftRight, Nat.shiftRight_eq_div_pow, toNat_entry]

/-- Settles O30: the index is the number of a byte, so it is below 256 and names one table entry; the
worked example reads entry 0x97. -/
theorem foldAShiftsRightAndIndexesTheLowByte :
    Obligations.FoldAShiftsRightAndIndexesTheLowByte := by
  constructor
  · intro w read r b _ hr
    refine ⟨?_, ?_, fits_foldA read b hr⟩
    · rw [← toNat_indexA]
      exact (indexA r b).isLt
    · rw [ofNat_eq_indexA, toNat_foldA]
  · intro read hread
    have hindex : indexA 0xFFFFFFFF 0x68 = 0x97 := by decide
    rw [foldA, entry, hindex, hread]
    decide

/-! ## Branch B -/

/-- `x` as a number: the data byte, reversed over 8 bits when INPUT_REFLECTED is 1 (R64). -/
theorem toNat_inputByte (ir : Bool) (b : Byte) :
    (inputByte ir b).toNat = if ir then (reverseBits (b.setWidth 64) 8).toNat else b.toNat := by
  have hrev : (reverseBits (b.setWidth 64) 8).toNat < 2 ^ 8 := fits_reverseBits (by decide) _
  cases ir with
  | false => rfl
  | true => exact (BitVec.toNat_setWidth ..).trans (Nat.mod_eq_of_lt hrev)

/-- A w-bit register is a byte above `w - 8` bits. -/
theorem two_pow_eq_byte_mul {w : Nat} (hw : 8 ≤ w) : 2 ^ w = 256 * 2 ^ (w - 8) := by
  rw [show 256 = 2 ^ 8 from rfl, ← pow_add, Nat.add_sub_cancel' hw]

/-- A byte moved to the top 8 bits of a w-bit register stays inside the register (R64). -/
theorem byte_mul_two_pow_lt {w : Nat} (hw : 8 ≤ w) (x : Byte) : x.toNat * 2 ^ (w - 8) < 2 ^ w := by
  rw [two_pow_eq_byte_mul hw]
  exact Nat.mul_lt_mul_of_pos_right x.isLt (Nat.two_pow_pos _)

/-- `t` as a number: no bit of the byte is lost at the top of the container (R64). -/
theorem toNat_mixB {w : Nat} (hw : 8 ≤ w) (hw64 : w ≤ 64) (r : Word) (x : Byte) :
    (mixB w r x).toNat = r.toNat ^^^ x.toNat * 2 ^ (w - 8) := by
  have hx : x.toNat * 2 ^ (w - 8) < 2 ^ 64 :=
    (byte_mul_two_pow_lt hw x).trans_le (Nat.pow_le_pow_right (by decide) hw64)
  rw [mixB, BitVec.toNat_xor, BitVec.toNat_shiftLeft, BitVec.toNat_setWidth_of_le (by decide),
    Nat.shiftLeft_eq, Nat.mod_eq_of_lt hx]

theorem fits_mixB {w : Nat} (hw : 8 ≤ w) (hw64 : w ≤ 64) {r : Word} (x : Byte) (hr : fits w r) :
    fits w (mixB w r x) := by
  rw [fits, toNat_mixB hw hw64]
  exact Nat.xor_lt_two_pow hr (byte_mul_two_pow_lt hw x)

/-- What stands above the low `w - 8` bits of a w-bit value is a byte: the AND with 0xFF of R64
changes nothing. -/
theorem div_two_pow_lt_of_fits {w : Nat} (hw : 8 ≤ w) {t : Word} (ht : fits w t) :
    t.toNat / 2 ^ (w - 8) < 256 := by
  have hlt : t.toNat < 256 * 2 ^ (w - 8) := two_pow_eq_byte_mul hw ▸ ht
  exact (Nat.div_lt_iff_lt_mul (Nat.two_pow_pos _)).mpr hlt

/-- The table read of Branch B is at the top byte of `t` (R64, R68). -/
theorem ofNat_eq_indexB (w : Nat) (t : Word) :
    BitVec.ofNat 8 (t.toNat / 2 ^ (w - 8)) = indexB w t := by
  apply BitVec.eq_of_toNat_eq
  rw [indexB, BitVec.toNat_ofNat, BitVec.toNat_setWidth, BitVec.toNat_ushiftRight,
    Nat.shiftRight_eq_div_pow]

/-- The left shift of R64 in unsigned arithmetic: what leaves the container at the top is above the
w bits that are kept. -/
theorem toNat_trunc_shiftLeft {w : Nat} (hw64 : w ≤ 64) (t : Word) (k : Nat) :
    (trunc w (t <<< k)).toNat = t.toNat * 2 ^ k % 2 ^ w := by
  rw [toNat_trunc, BitVec.toNat_shiftLeft, Nat.shiftLeft_eq,
    Nat.mod_mod_of_dvd _ (Nat.pow_dvd_pow 2 hw64)]

/-- `fold_B` in unsigned arithmetic, with `t` as the model forms it (R64). -/
theorem toNat_foldB {w : Nat} (hw64 : w ≤ 64) (ir : Bool) (read : Byte → Word) (r : Word)
    (b : Byte) : (foldB w ir read r b).toNat = (mixB w r (inputByte ir b)).toNat * 2 ^ 8 % 2 ^ w ^^^
      (read (indexB w (mixB w r (inputByte ir b)))).toNat % 2 ^ w := by
  rw [foldB, BitVec.toNat_xor, toNat_trunc_shiftLeft hw64, toNat_entry]

/-- Settles O31, with `x` and `t` the numbers of the byte and the register that `foldB` forms; the
worked example reads entry 0x31. -/
theorem foldBShiftsLeftAndIndexesTheTopByte :
    Obligations.FoldBShiftsLeftAndIndexesTheTopByte := by
  constructor
  · intro w ir read r b hwidth hr
    obtain ⟨hw, hw64, -⟩ := width_bounds hwidth
    refine ⟨(inputByte ir b).toNat, (mixB w r (inputByte ir b)).toNat, toNat_inputByte ir b,
      toNat_mixB hw hw64 r _, byte_mul_two_pow_lt hw _,
      div_two_pow_lt_of_fits hw (fits_mixB hw hw64 _ hr), ?_, fits_foldB w ir read r b⟩
    rw [ofNat_eq_indexB, toNat_foldB hw64]
  · intro read hread
    have hindex : indexB 16 (mixB 16 0x0000 (inputByte false 0x31)) = 0x31 := by decide
    rw [foldB, entry, hindex, hread]
    decide

end Sys2Proof.Machine
end

section
/-! The datapath at w = 8 (42_datapath.md R60): the shifts by 8 leave nothing, the shifts by `w - 8`
change nothing, and each fold is one table read. -/

namespace Sys2Proof.Machine

theorem shiftRight_eq_zero_of_fits {n : Nat} {r : Word} (hr : fits n r) : r >>> n = 0 := by
  apply BitVec.eq_of_toNat_eq
  rw [BitVec.toNat_ushiftRight, Nat.shiftRight_eq_div_pow]
  exact Nat.div_eq_of_lt hr

theorem trunc_shiftLeft_self (n : Nat) (v : Word) : trunc n (v <<< n) = 0 := by
  apply BitVec.eq_of_getLsbD_eq
  intro i _
  rw [getLsbD_trunc, BitVec.getLsbD_shiftLeft]
  by_cases hi : i < n <;> simp [hi]

/-- At w = 8 the top byte of `t` is all of it: the register XOR the byte. -/
theorem indexB_mixB_eight (r : Word) (x : Byte) : indexB 8 (mixB 8 r x) = r.setWidth 8 ^^^ x := by
  rw [indexB, mixB, Nat.sub_self, BitVec.ushiftRight_zero, BitVec.shiftLeft_zero, BitVec.setWidth_xor,
    BitVec.setWidth_setWidth_of_le _ (by decide), BitVec.setWidth_eq]

/-- Branch A at w = 8 is one table read (R60). -/
theorem foldA_eight (read : Byte → Word) {r : Word} (b : Byte) (hr : fits 8 r) :
    foldA 8 read r b = entry 8 read (r.setWidth 8 ^^^ b) := by
  rw [foldA, shiftRight_eq_zero_of_fits hr, indexA]
  exact BitVec.zero_xor

/-- Branch B at w = 8 is one table read (R60). -/
theorem foldB_eight (ir : Bool) (read : Byte → Word) (r : Word) (b : Byte) :
    foldB 8 ir read r b = entry 8 read (r.setWidth 8 ^^^ inputByte ir b) := by
  rw [foldB, trunc_shiftLeft_self, indexB_mixB_eight]
  exact BitVec.zero_xor

/-- Settles O32: in each fold the shifted register drops out and the table entry remains. -/
theorem foldsAtWidthEight : Obligations.FoldsAtWidthEight := by
  intro ir read r b hr
  exact ⟨shiftRight_eq_zero_of_fits hr, trunc_shiftLeft_self 8 r, BitVec.ushiftRight_zero r,
    BitVec.shiftLeft_zero, foldA_eight read b hr, foldB_eight ir read r b⟩

end Sys2Proof.Machine
end

section
/-! The output stage (42_datapath.md R67): what it keeps in each configuration, and what CALC and ACCUM
do with its two values. -/

namespace Sys2Proof.Machine

/-- In the output-only configuration the register is kept reversed over w bits (R67). -/
theorem storedValue_of_outputOnly {p : Params} (r : Word) (h : outputOnly p) :
    storedValue p r = reverseBits r p.width.toNat :=
  if_pos ((reversesResult_iff p).mpr h)

/-- In every other configuration the register is kept as it is (R67). -/
theorem storedValue_of_not_outputOnly {p : Params} (r : Word) (h : ¬ outputOnly p) :
    storedValue p r = r :=
  if_neg (mt (reversesResult_iff p).mp h)

/-- The kept value in the order of the rule's tests: Branch A first, then RESULT_REFLECTED (R67). -/
theorem storedValue_eq_ite (p : Params) (r : Word) :
    storedValue p r = if p.inputReflected = true ∧ p.resultReflected = true then r
      else if p.resultReflected = true then reverseBits r p.width.toNat else r := by
  split_ifs with hboth hrr
  · obtain ⟨hir, -⟩ := hboth
    exact storedValue_of_not_outputOnly r fun ⟨hir', _⟩ => Bool.false_ne_true (hir'.symm.trans hir)
  · have hir : p.inputReflected = false := Bool.eq_false_iff.mpr fun hir => hboth ⟨hir, hrr⟩
    exact storedValue_of_outputOnly r ⟨hir, hrr⟩
  · exact storedValue_of_not_outputOnly r fun ⟨_, hrr'⟩ => hrr hrr'

/-- CALC on a configured engine delivers the visible value and keeps nothing (R70). -/
theorem exec_calculate_of_configured (data : List Byte) {s : State} (h : s.configured = true) :
    exec (.calculate data) s = .next (s.deliver (s.process s.params.initialValue data).visible) := by
  rw [exec, execCalc, State.ifConfigured_true _ h]

/-- ACCUM on a configured engine keeps the stored value and delivers the visible one (R73). -/
theorem exec_accum_of_configured (data : List Byte) {s : State} (h : s.configured = true) :
    exec (.accum data) s = .next ((s.setAccumulate (s.process s.accumulate data).stored).deliver
      (s.process s.accumulate data).visible) := by
  rw [exec, execAccum, State.ifConfigured_true _ h]

/-- Settles O35, from the value the stage keeps, its width bound, and the state each of the two data
commands completes in. -/
theorem outputStageReversesOnlyInOutputOnly : Obligations.OutputStageReversesOnlyInOutputOnly := by
  refine ⟨fun p r => ⟨storedValue_eq_ite p r, rfl, fun _ hr hx => ?_⟩, ?_, fun data s hs => ?_⟩
  · have hstored := fits_storedValue hr
    exact ⟨hstored, fits_xor hstored hx⟩
  · intro p hwidth hir hrr hxor
    have hstored : storedValue p 0xD999 = 0x999B := by
      rw [storedValue_of_outputOnly _ ⟨hir, hrr⟩, hwidth]
      decide
    rw [outputStage, hstored, hxor]
    decide
  · exact ⟨⟨_, exec_calculate_of_configured data hs, rfl, rfl⟩,
      ⟨_, exec_accum_of_configured data hs, rfl, rfl⟩⟩

end Sys2Proof.Machine
end

section
/-! CALC (43_oneshot.md R70): one visible value on the result port, and no other change. -/

namespace Sys2Proof.Machine

/-- Settles O20. The frame begins with CALC's opcode (framing law); the end state is `State.deliver` of
the datapath's visible value, which is `storedValue` XOR FINAL_XOR_VALUE, so the two configuration
clauses are the two laws of `storedValue`. -/
theorem calcReturnsTheChecksumAndWritesNoRegister :
    Obligations.CalcReturnsTheChecksumAndWritesNoRegister := by
  intro data
  obtain ⟨hop, -⟩ := Laws.Framing.calculate data
  refine ⟨hop, fun s hs => ⟨_, _, exec_calculate_of_configured data hs, rfl, fun i => ?_,
    fun hout => ?_, fun hout => ?_⟩⟩
  · rw [State.deliver_tableRead]
  · rw [State.process, outputStage_visible, storedValue_of_not_outputOnly _ hout]
  · rw [State.process, outputStage_visible, storedValue_of_outputOnly _ hout, State.w]

end Sys2Proof.Machine
end

section
/-! ACCUM, RESET and GET (44_incremental.md R73, R76, R77): the state each completes in on a configured
engine, and the three statements read off it. -/

namespace Sys2Proof.Machine

/-! ## ACCUM -/

/-- Settles O23. The new ACCUMULATE is the datapath's stored value, and the delivered value is that one
XOR FINAL_XOR_VALUE; the two configuration clauses are the two laws of `storedValue`. -/
theorem accumKeepsTheFoldAndReturnsItXored : Obligations.AccumKeepsTheFoldAndReturnsItXored := by
  intro data
  obtain ⟨hop, -⟩ := Laws.Framing.accum data
  refine ⟨hop, fun s hs => ⟨_, (s.process s.accumulate data).stored,
    exec_accum_of_configured data hs, rfl, fun i => ?_, fun hout => ?_, fun hout => ?_⟩⟩
  · rw [State.deliver_tableRead, State.setAccumulate_tableRead]
  · rw [State.process, outputStage_stored, storedValue_of_not_outputOnly _ hout]
  · rw [State.process, outputStage_stored, storedValue_of_outputOnly _ hout, State.w]

/-! ## RESET -/

/-- RESET on a configured engine restores the initial value and delivers nothing (R76). -/
theorem exec_reset_of_configured {s : State} (h : s.configured = true) :
    exec .reset s = .next s.restoreInitial := by
  rw [exec, execReset, State.ifConfigured_true _ h]

/-- Restoring reads INITIAL_VALUE, which a restore does not write. -/
@[simp] theorem State.restoreInitial_restoreInitial (s : State) :
    s.restoreInitial.restoreInitial = s.restoreInitial := rfl

theorem State.restoreInitial_eq_self {s : State} (h : s.accumulate = s.params.initialValue) :
    s.restoreInitial = s := by
  rw [State.restoreInitial, State.setAccumulate, ← h]

/-- Settles O25: RESET is `State.restoreInitial`, which is idempotent and fixes a fresh engine. -/
theorem resetRestoresTheInitialValue : Obligations.ResetRestoresTheInitialValue := by
  refine ⟨rfl, fun s hs => ⟨s.restoreInitial, exec_reset_of_configured hs, rfl, fun i => ?_, ?_,
    State.restoreInitial_eq_self⟩⟩
  · rw [State.restoreInitial_tableRead]
  · have hconf := (State.restoreInitial_configured s).trans hs
    rw [exec_reset_of_configured hconf, State.restoreInitial_restoreInitial]

/-! ## GET -/

/-- GET on a configured engine delivers ACCUMULATE as it was XOR FINAL_XOR_VALUE and restores the
initial value (R77). -/
theorem exec_get_of_configured {s : State} (h : s.configured = true) :
    exec .get s =
      .next (s.restoreInitial.deliver (s.accumulate ^^^ s.params.finalXorValue)) := by
  rw [exec, execGet, State.ifConfigured_true _ h]

/-- Settles O26: the restore and the delivery write ACCUMULATE and the result port, nothing else. -/
theorem getReturnsTheChecksumAndResets : Obligations.GetReturnsTheChecksumAndResets := by
  refine ⟨rfl, fun s hs => ⟨_, exec_get_of_configured hs, rfl, fun i => ?_⟩⟩
  rw [State.deliver_tableRead, State.restoreInitial_tableRead]

end Sys2Proof.Machine
end

section
/-! Branch B with explicit reflection mirrors Branch A (45_properties.md R84): seen through a reversal
over w bits, each ingredient of `fold_B` is the ingredient of `fold_A` at the reversed register. -/

namespace Sys2Proof.Machine

/-! ## The reversal of a byte (R56) -/

theorem getLsbD_reverseByte (b : Byte) {i : Nat} (hi : i < 8) :
    (reverseByte b).getLsbD i = b.getLsbD (7 - i) := by
  have h64 : 8 - 1 - i < 64 := by omega
  rw [reverseByte, BitVec.getLsbD_setWidth, getLsbD_reverseBits_of_lt (by decide) _ hi,
    BitVec.getLsbD_setWidth, decide_eq_true hi, decide_eq_true h64, Bool.true_and, Bool.true_and]

@[simp] theorem reverseByte_reverseByte (b : Byte) : reverseByte (reverseByte b) = b := by
  apply BitVec.eq_of_getLsbD_eq
  intro i hi
  have hlow : 7 - i < 8 := by omega
  have hback : 7 - (7 - i) = i := by omega
  rw [getLsbD_reverseByte _ hi, getLsbD_reverseByte _ hlow, hback]

/-- A byte in a container is a w-bit value for every width of at least 8. -/
theorem fits_byte {w : Nat} (hw : 8 ≤ w) (x : Byte) : fits w (x.setWidth 64) := by
  rw [fits, BitVec.toNat_setWidth_of_le (by decide)]
  exact x.isLt.trans_le (Nat.pow_le_pow_right (by decide) hw)

/-! ## The ingredients of `fold_B`, reversed over w bits -/

section
variable {w : Nat} (hw : 8 ≤ w) (hw64 : w ≤ 64)
include hw hw64

/-- A byte in the top 8 bits of the register is, reversed, the reversed byte in the low 8 bits. -/
theorem reverseBits_topByte (x : Byte) :
    reverseBits (x.setWidth 64 <<< (w - 8)) w = (reverseByte x).setWidth 64 := by
  refine reverseBits_eq_of_getLsbD hw64 (fits_byte hw _) fun i hi => ?_
  have h64 : i < 64 := by omega
  have hsrc64 : w - 1 - i < 64 := by omega
  rw [BitVec.getLsbD_shiftLeft, BitVec.getLsbD_setWidth, BitVec.getLsbD_setWidth,
    decide_eq_true h64, decide_eq_true hsrc64, Bool.true_and, Bool.true_and]
  by_cases hbyte : i < 8
  · have hin : ¬ w - 1 - i < w - 8 := by omega
    have hsrc : w - 1 - i - (w - 8) = 7 - i := by omega
    have h7 : 7 - i < 64 := by omega
    rw [getLsbD_reverseByte x hbyte, hsrc, decide_eq_false hin, decide_eq_true h7]
    rfl
  · have hout : w - 1 - i < w - 8 := by omega
    rw [decide_eq_true hout, BitVec.getLsbD_of_ge (reverseByte x) i (by omega)]
    rfl

/-- `t` of R64 with the reversed data byte is, reversed, the reversed register with the data byte in
its low 8 bits. -/
theorem reverseBits_mixB (r : Word) (b : Byte) :
    reverseBits (mixB w r (reverseByte b)) w = reverseBits r w ^^^ b.setWidth 64 := by
  rw [mixB, reverseBits_xor hw64, reverseBits_topByte hw hw64, reverseByte_reverseByte]

/-- The top byte of a register is the reversal of the low byte of the reversed register. -/
theorem indexB_eq_reverseByte (t : Word) :
    indexB w t = reverseByte ((reverseBits t w).setWidth 8) := by
  apply BitVec.eq_of_getLsbD_eq
  intro i hi
  have h7 : 7 - i < 8 := by omega
  have hsrc : w - 1 - (7 - i) = w - 8 + i := by omega
  rw [indexB, getLsbD_reverseByte _ hi, BitVec.getLsbD_setWidth, BitVec.getLsbD_setWidth,
    BitVec.getLsbD_ushiftRight, getLsbD_reverseBits_of_lt hw64 t (by omega), hsrc,
    decide_eq_true hi, decide_eq_true h7]

/-- Branch B reads the table at the reversal of the index at which Branch A reads it (R84). -/
theorem indexB_mixB_eq_reverseByte_indexA (r : Word) (b : Byte) :
    indexB w (mixB w r (reverseByte b)) = reverseByte (indexA (reverseBits r w) b) := by
  rw [indexB_eq_reverseByte hw hw64, reverseBits_mixB hw hw64, indexA, BitVec.setWidth_xor,
    BitVec.setWidth_setWidth_of_le _ (by decide), BitVec.setWidth_eq]

omit hw in
/-- A left shift inside the register is, reversed, a right shift (R55 (e) read backwards). -/
theorem reverseBits_trunc_shiftLeft {t : Word} (k : Nat) (ht : fits w t) :
    reverseBits (trunc w (t <<< k)) w = reverseBits t w >>> k := by
  have hrev := fits_reverseBits hw64 t
  have hlaw := reverseBits_ushiftRight hw64 k hrev
  rw [reverseBits_reverseBits hw64 ht] at hlaw
  rw [← hlaw, reverseBits_reverseBits hw64 (fits_shiftRight k hrev)]

/-- The shifted register of Branch B is, reversed, that of Branch A: the data byte is shifted out. -/
theorem reverseBits_trunc_mixB_shiftLeft {r : Word} (b : Byte) (hr : fits w r) :
    reverseBits (trunc w (mixB w r (reverseByte b) <<< 8)) w = reverseBits r w >>> 8 := by
  rw [reverseBits_trunc_shiftLeft hw64 8 (fits_mixB hw hw64 _ hr), reverseBits_mixB hw hw64,
    BitVec.ushiftRight_xor_distrib, shiftRight_eq_zero_of_fits (fits_byte le_rfl b)]
  exact BitVec.xor_zero

end

/-! ## The folds -/

/-- Branch A's table is Branch B's with index and content reversed (R84). -/
def MirrorTable (w : Nat) (tb ta : Byte → Word) : Prop :=
  ∀ i, ta i = reverseBits (tb (reverseByte i)) w

/-- The entry Branch B reads is, reversed, the entry Branch A reads at the reversed index. -/
theorem MirrorTable.reverseBits_entry {w : Nat} {tb ta : Byte → Word} (hw64 : w ≤ 64)
    (htab : MirrorTable w tb ta) (i : Byte) :
    reverseBits (entry w tb (reverseByte i)) w = entry w ta i := by
  rw [entry, entry, htab, reverseBits_trunc hw64, trunc_of_fits (fits_reverseBits hw64 _)]

section
variable {w : Nat} {tb ta : Byte → Word} (hwidth : w ∈ Config.widths) (htab : MirrorTable w tb ta)
include hwidth htab

/-- One byte: Branch B with explicit reflection, reversed, is Branch A on the mirrored table (R84). -/
theorem reverseBits_foldB {r : Word} (b : Byte) (hr : fits w r) :
    reverseBits (foldB w true tb r b) w = foldA w ta (reverseBits r w) b := by
  obtain ⟨hw, hw64, -⟩ := width_bounds hwidth
  have hinput : inputByte true b = reverseByte b := rfl
  rw [foldB, foldA, hinput, reverseBits_xor hw64, reverseBits_trunc_mixB_shiftLeft hw hw64 b hr,
    indexB_mixB_eq_reverseByte_indexA hw hw64, htab.reverseBits_entry hw64]

/-- A buffer: the two branches mirror each other byte after byte (R84). -/
theorem reverseBits_foldl_foldB {x : Word} (data : List Byte) (hx : fits w x) :
    reverseBits (data.foldl (foldB w true tb) x) w = data.foldl (foldA w ta) (reverseBits x w) := by
  induction data generalizing x with
  | nil => rfl
  | cons b data ih =>
    rw [List.foldl_cons, List.foldl_cons, ih (fits_foldB w true tb x b),
      reverseBits_foldB hwidth htab b hx]

end

/-- Settles O42. The equivalences are the mirrored fold of a buffer, at a palindromic initial value and
at a reversed one; with the constant table 1 in both branches, one byte at w = 8 gives 0x80 and 1. -/
theorem branchEquivalence : Obligations.BranchEquivalence := by
  refine ⟨fun w tb ta hwidth htab => ⟨fun r b hr => reverseBits_foldB hwidth htab b hr,
    fun x data hx => reverseBits_foldl_foldB hwidth htab data hx, fun iv fx data hiv hpal => ?_,
    fun iv fx data hiv => ?_⟩, 8, fun _ => 1, 0, 0, by decide, Nat.two_pow_pos 8, by decide⟩
  · rw [reverseBits_foldl_foldB hwidth htab data hiv, hpal]
  · obtain ⟨-, hw64, -⟩ := width_bounds hwidth
    rw [reverseBits_foldl_foldB hwidth htab data (fits_reverseBits hw64 iv),
      reverseBits_reverseBits hw64 hiv]

end Sys2Proof.Machine
end

section
/-! ACCUM composes (45_properties.md R80): a buffer is a left fold, so a concatenation is folded part
by part, and a sequence of ACCUMs folds chunk after chunk with the output stage in between. -/

namespace Sys2Proof.Machine

@[simp] theorem foldBuffer_nil (p : Params) (read : Byte → Word) (x : Word) :
    foldBuffer p read x [] = x := rfl

theorem foldBuffer_append (p : Params) (read : Byte → Word) (x : Word) (d1 d2 : List Byte) :
    foldBuffer p read x (d1 ++ d2) = foldBuffer p read (foldBuffer p read x d1) d2 :=
  List.foldl_append

/-- Folding the chunks one after the other is folding them joined together. -/
theorem foldl_foldBuffer (p : Params) (read : Byte → Word) (x : Word) (chunks : List (List Byte)) :
    chunks.foldl (foldBuffer p read) x = foldBuffer p read x chunks.flatten :=
  List.foldl_flatten.symm

/-- What one ACCUM of `data` makes of the running register `a`: fold, then output stage (R73). -/
def accumValue (p : Params) (read : Byte → Word) (a : Word) (data : List Byte) : Word :=
  storedValue p (foldBuffer p read a data)

theorem accumValue_of_not_outputOnly {p : Params} (read : Byte → Word) (h : ¬ outputOnly p) :
    accumValue p read = foldBuffer p read :=
  funext₂ fun _ _ => storedValue_of_not_outputOnly _ h

theorem accumValue_of_outputOnly {p : Params} (read : Byte → Word) (h : outputOnly p) :
    accumValue p read = fun a d => reverseBits (foldBuffer p read a d) p.width.toNat :=
  funext₂ fun _ _ => storedValue_of_outputOnly _ h

/-- A sequence whose first command answers a next state goes on from there (R33). -/
theorem runCommands_cons_of_next {i : Instr} {s t : State} (h : exec i s = .next t)
    (is : List Instr) : runCommands (i :: is) s = runCommands is t := by
  rw [runCommands, h]

/-- A sequence of ACCUMs on a configured engine completes and leaves in ACCUMULATE the chunks taken in
one after the other (R73, R80). -/
theorem runCommands_accums (chunks : List (List Byte)) {s : State} (hs : s.configured = true) :
    ∃ t, runCommands (chunks.map .accum) s = .next t ∧
      t.accumulate = chunks.foldl (accumValue s.params s.tableRead) s.accumulate := by
  induction chunks generalizing s with
  | nil => exact ⟨s, rfl, rfl⟩
  | cons d chunks ih =>
    rw [List.map_cons, runCommands_cons_of_next (exec_accum_of_configured d hs)]
    exact ih hs

/-- Settles O36, from the fold over a concatenation and the run of a sequence of ACCUMs, whose register
the configuration's law of `storedValue` spells out. -/
theorem accumsComposeOverConcatenation : Obligations.AccumsComposeOverConcatenation := by
  refine ⟨fun p read x d1 d2 => ⟨foldBuffer_append p read x d1 d2, foldBuffer_nil p read x⟩,
    fun chunks s hs => ?_⟩
  obtain ⟨t, hrun, hacc⟩ := runCommands_accums chunks hs
  refine ⟨t, hrun, fun hout => ?_, fun hout => ?_⟩
  · rw [hacc, accumValue_of_not_outputOnly _ hout, foldl_foldBuffer]
  · rw [hacc, accumValue_of_outputOnly _ hout, State.w]

end Sys2Proof.Machine
end

section
/-! RESET is a fresh start (45_properties.md R82): on registers that fit, the truncation of INIT
changes nothing, so INIT with the record already loaded only restores the initial value. -/

namespace Sys2Proof.Machine

/-- INIT's truncation fixes the record of an engine whose registers fit (R41, R82). -/
theorem truncParams_eq_self {s : State} (h : RegistersFit s) : truncParams s.params = s.params := by
  have hp : trunc s.params.width.toNat s.params.polynomial = s.params.polynomial :=
    trunc_of_fits h.polynomial
  have hi : trunc s.params.width.toNat s.params.initialValue = s.params.initialValue :=
    trunc_of_fits h.initialValue
  have hx : trunc s.params.width.toNat s.params.finalXorValue = s.params.finalXorValue :=
    trunc_of_fits h.finalXorValue
  rw [truncParams, hp, hi, hx]

/-- Loading the record already there into a configured engine is a restore of the initial value. -/
theorem State.configure_params_self {s : State} (h : s.configured = true) :
    s.configure s.params s.params.initialValue = s.restoreInitial := by
  rw [State.configure, State.restoreInitial, State.setAccumulate, ← h]

/-- INIT with the parameters already loaded does what RESET does (R82). -/
theorem exec_init_params_eq_exec_reset {s : State} (hs : s.configured = true)
    (hfit : RegistersFit s) : exec (.init s.params) s = exec .reset s := by
  rw [exec_init_of_mem_widths s hfit.width, truncParams_eq_self hfit,
    State.configure_params_self hs, exec_reset_of_configured hs]

/-- Settles O39. RESET, INIT with the same record and RESET again all answer `State.restoreInitial`,
and GET answers it with one value delivered; after an INIT GET reads the truncated initial value. -/
theorem resetIsAFreshStart : Obligations.ResetIsAFreshStart := by
  constructor
  · intro s hs hfit
    have hinit := exec_init_params_eq_exec_reset hs hfit
    have hreset := exec_reset_of_configured hs
    have hconf := (State.restoreInitial_configured s).trans hs
    refine ⟨s.restoreInitial, hreset, hinit.trans hreset, ?_, fun is => ?_, _,
      exec_get_of_configured hs⟩
    · rw [exec_reset_of_configured hconf, State.restoreInitial_restoreInitial]
    · rw [runCommands, runCommands, hinit]
  · intro p s t h
    obtain ⟨_, ⟨rfl⟩, -, rfl⟩ | ⟨_, ⟨⟩, -⟩ | ⟨_, ⟨⟩, -⟩ | ⟨⟨⟩, -⟩ | ⟨⟨⟩, -⟩ := exec_next_cases h
    exact ⟨_, exec_get_of_configured (State.configure_configured ..), rfl, rfl⟩

end Sys2Proof.Machine
end

section
/-! CALC and ACCUM with no data (45_properties.md R83): the fold of nothing is the start value, and the
output stage still runs. -/

namespace Sys2Proof.Machine

/-- With no data the kept value is that of the output stage on the start value (R66, R83). -/
theorem State.process_nil_stored (s : State) (r : Word) :
    (s.process r []).stored = storedValue s.params r := rfl

/-- The visible value of one CALC or ACCUM is the kept one XOR FINAL_XOR_VALUE (R67). -/
theorem State.process_visible (s : State) (r : Word) (data : List Byte) :
    (s.process r data).visible = (s.process r data).stored ^^^ s.params.finalXorValue := rfl

/-- Settles O40: the end states of CALC and ACCUM with the output stage's value on the start register,
by its law in each configuration. -/
theorem zeroLengthData : Obligations.ZeroLengthData := by
  intro s hs
  rw [exec_calculate_of_configured [] hs, exec_accum_of_configured [] hs,
    State.process_visible, State.process_visible, State.process_nil_stored,
    State.process_nil_stored]
  refine ⟨fun hout => ?_, fun hout => ?_⟩
  · rw [storedValue_of_not_outputOnly _ hout, storedValue_of_not_outputOnly _ hout]
    exact ⟨rfl, rfl⟩
  · rw [storedValue_of_outputOnly _ hout, storedValue_of_outputOnly _ hout]
    exact ⟨rfl, BitVec.xor_left_inj _, rfl⟩

end Sys2Proof.Machine
end

section
/-! What the commands do not depend on: the bits at position w and above of table entries and of INIT's
value fields (45_properties.md R87), and POLYNOMIAL (R90). Each is a change of the state that every
command commutes with. -/

namespace Sys2Proof.Machine

/-- The guard of CALC, ACCUM, RESET and GET commutes with a change of the state that leaves
`configured` alone, where the command behind it does. -/
theorem State.ifConfigured_commutes (f : State → State) {s : State}
    {k : State → Host.Outcome State Fault Refusal} (hf : (f s).configured = s.configured)
    (hk : k (f s) = mapNext f (k s)) : (f s).ifConfigured k = mapNext f (s.ifConfigured k) := by
  cases hc : s.configured with
  | true => rw [State.ifConfigured_true k (hf.trans hc), State.ifConfigured_true k hc, hk]
  | false => rw [State.ifConfigured_false k (hf.trans hc), State.ifConfigured_false k hc, mapNext]

/-! ## Table entries above the width (R58, R87) -/

/-- A byte fold sees no more of the table than the entries truncated to w bits. -/
theorem foldByte_congr {p : Params} {read read' : Byte → Word}
    (h : entry p.width.toNat read' = entry p.width.toNat read) :
    foldByte p read' = foldByte p read := by
  funext r b
  rw [foldByte, foldByte]
  cases selectBranch p with
  | a => exact congrArg (r >>> 8 ^^^ ·) (congrFun h _)
  | b => exact congrArg (trunc _ _ ^^^ ·) (congrFun h _)

/-- Two tables that agree below the width give every CALC and ACCUM the same two values (R87). -/
theorem State.process_setTable {s : State} {m : Memory}
    (h : entry s.w (s.setTable m).tableRead = entry s.w s.tableRead) (r : Word) (data : List Byte) :
    (s.setTable m).process r data = s.process r data :=
  congrArg (fun fold => outputStage s.params (data.foldl fold r)) (foldByte_congr h)

/-- A command on a table that agrees below the width does the same and leaves that table (R87). -/
theorem exec_setTable (i : Instr) {s : State} {m : Memory}
    (h : entry s.w (s.setTable m).tableRead = entry s.w s.tableRead) :
    exec i (s.setTable m) = mapNext (·.setTable m) (exec i s) := by
  cases i with
  | init p =>
    rw [exec, exec, execInit, execInit]
    split <;> rfl
  | calculate data =>
    rw [exec, exec, execCalc, execCalc]
    refine State.ifConfigured_commutes (·.setTable m) rfl ?_
    simp only [State.process_setTable h]
    rfl
  | accum data =>
    rw [exec, exec, execAccum, execAccum]
    refine State.ifConfigured_commutes (·.setTable m) rfl ?_
    simp only [State.process_setTable h]
    rfl
  | reset =>
    rw [exec, exec, execReset, execReset]
    exact State.ifConfigured_commutes (·.setTable m) rfl rfl
  | get =>
    rw [exec, exec, execGet, execGet]
    exact State.ifConfigured_commutes (·.setTable m) rfl rfl

/-! ## Values below the width (R87) -/

/-- After every command ACCUMULATE is a w-bit value (R17, R87). -/
theorem fits_accumulate_of_exec {i : Instr} {s t : State} (hinv : Invariant s)
    (h : exec i s = .next t) : fits t.w t.accumulate := by
  obtain ⟨p, -, -, rfl⟩ | ⟨d, -, hs, rfl⟩ | ⟨d, -, hs, rfl⟩ | ⟨-, hs, rfl⟩ | ⟨-, hs, rfl⟩ :=
    exec_next_cases h
  · exact fits_trunc _ _
  · exact (hinv.registers hs).accumulate
  · have hfit := hinv.registers hs
    exact (fits_process d hfit.accumulate hfit.finalXorValue).1
  · exact (hinv.registers hs).initialValue
  · exact (hinv.registers hs).initialValue

/-- Every value a command delivers is a w-bit value (R45, R87). -/
theorem fits_results_of_exec {i : Instr} {s t : State} (hinv : Invariant s)
    (h : exec i s = .next t) : ∀ v ∈ t.results.drop s.results.length, fits t.w v := by
  obtain ⟨p, -, -, rfl⟩ | ⟨d, -, hs, rfl⟩ | ⟨d, -, hs, rfl⟩ | ⟨-, hs, rfl⟩ | ⟨-, hs, rfl⟩ :=
    exec_next_cases h
  · simp
  · have hfit := hinv.registers hs
    simpa using (fits_process d hfit.initialValue hfit.finalXorValue).2
  · have hfit := hinv.registers hs
    simpa using (fits_process d hfit.accumulate hfit.finalXorValue).2
  · simp
  · have hfit := hinv.registers hs
    simpa using fits_xor hfit.accumulate hfit.finalXorValue

/-- Settles O45: the bounds by the inversion of `exec`, the table by the commutation above, INIT's
fields because it reads them truncated only, and the index because it is a byte. -/
theorem widthBoundaryMasking : Obligations.WidthBoundaryMasking := by
  refine ⟨fun i s t hinv h => ⟨fits_accumulate_of_exec hinv h, fits_results_of_exec hinv h⟩,
    fun i s m h => exec_setTable i (funext h), ?_, fun w r t b => ⟨BitVec.isLt _, BitVec.isLt _⟩⟩
  intro p q s hw hir hrr hpoly hiv hfx
  have htrunc : truncParams q = truncParams p := by
    rw [truncParams, truncParams, hw, hir, hrr, hpoly, hiv, hfx]
  rw [exec, exec, execInit, execInit, Params.widthLegal, Params.widthLegal, htrunc, hw]

/-! ## POLYNOMIAL (R90) -/

/-- A command does the same whatever POLYNOMIAL holds, refusals included; INIT loads another POLYNOMIAL
over it, every other command leaves it (R14, R90). -/
theorem exec_setPolynomial (i : Instr) (s : State) (v : Word) :
    ∃ v', exec i (s.setPolynomial v) = mapNext (·.setPolynomial v') (exec i s) := by
  cases i with
  | init p =>
    refine ⟨(truncParams p).polynomial, ?_⟩
    rw [exec, exec, execInit, execInit]
    split <;> rfl
  | calculate data =>
    rw [exec, exec, execCalc, execCalc]
    exact ⟨v, State.ifConfigured_commutes (·.setPolynomial v) rfl rfl⟩
  | accum data =>
    rw [exec, exec, execAccum, execAccum]
    exact ⟨v, State.ifConfigured_commutes (·.setPolynomial v) rfl rfl⟩
  | reset =>
    rw [exec, exec, execReset, execReset]
    exact ⟨v, State.ifConfigured_commutes (·.setPolynomial v) rfl rfl⟩
  | get =>
    rw [exec, exec, execGet, execGet]
    exact ⟨v, State.ifConfigured_commutes (·.setPolynomial v) rfl rfl⟩

/-- Settles O47, by induction over the sequence: after each command the two engines again differ in
POLYNOMIAL only. -/
theorem polynomialHasNoEffect : Obligations.PolynomialHasNoEffect := by
  intro is
  induction is with
  | nil => exact fun s v => ⟨v, rfl⟩
  | cons i is ih =>
    intro s v
    obtain ⟨v', hexec⟩ := exec_setPolynomial i s v
    rw [runCommands, runCommands, hexec]
    cases exec i s with
    | next t => exact ih t v'
    | fault r => exact nomatch r
    | refused r => exact ⟨v, rfl⟩

end Sys2Proof.Machine
end

section
/-! FINAL_XOR_VALUE (45_properties.md R88): the engine with another value there runs in step with the
first one, its results shifted by the XOR of the two values. -/

namespace Sys2Proof.Machine

/-- The same engine with another FINAL_XOR_VALUE and other results delivered. -/
def State.withFinalXor (s : State) (x : Word) (results : List Word) : State :=
  { s.setFinalXor x with results := results }

/-- A result with FINAL_XOR_VALUE `x` in the place of `fx` (R88). -/
def changeFinalXor (fx x v : Word) : Word := v ^^^ fx ^^^ x

theorem changeFinalXor_xor (fx x a : Word) : changeFinalXor fx x (a ^^^ fx) = a ^^^ x := by
  rw [changeFinalXor, BitVec.xor_assoc a, BitVec.xor_self, BitVec.xor_zero]

/-- FINAL_XOR_VALUE does not enter the kept value (R67, R88). -/
theorem State.process_withFinalXor_stored (s : State) (x : Word) (rs : List Word) (r : Word)
    (data : List Byte) :
    ((s.withFinalXor x rs).process r data).stored = (s.process r data).stored := rfl

/-- A command other than INIT keeps the parameter registers; with another FINAL_XOR_VALUE it does the
same and delivers the same values, changed by the XOR of the two (R88). -/
theorem exec_withFinalXor {i : Instr} {s t : State} (x : Word) (rs : List Word)
    (hi : i.isInit = false) (h : exec i s = .next t) :
    t.params = s.params ∧ ∃ vs, t.results = s.results ++ vs ∧
      exec i (s.withFinalXor x rs) =
        .next (t.withFinalXor x (rs ++ vs.map (changeFinalXor s.params.finalXorValue x))) := by
  obtain ⟨p, rfl, -, -⟩ | ⟨d, rfl, hs, rfl⟩ | ⟨d, rfl, hs, rfl⟩ | ⟨rfl, hs, rfl⟩ | ⟨rfl, hs, rfl⟩ :=
    exec_next_cases h
  · cases hi
  · refine ⟨rfl, _, State.deliver_results .., ?_⟩
    rw [exec_calculate_of_configured d (s := s.withFinalXor x rs) hs, List.map_singleton,
      State.process_visible, State.process_visible, State.process_withFinalXor_stored,
      changeFinalXor_xor]
    rfl
  · refine ⟨rfl, _, State.deliver_results .., ?_⟩
    rw [exec_accum_of_configured d (s := s.withFinalXor x rs) hs, List.map_singleton,
      State.process_visible, State.process_visible, State.process_withFinalXor_stored,
      changeFinalXor_xor]
    rfl
  · refine ⟨rfl, [], (List.append_nil _).symm, ?_⟩
    rw [exec_reset_of_configured (s := s.withFinalXor x rs) hs, List.map_nil, List.append_nil]
    rfl
  · refine ⟨rfl, _, State.deliver_results .., ?_⟩
    rw [exec_get_of_configured (s := s.withFinalXor x rs) hs, List.map_singleton, changeFinalXor_xor]
    rfl

/-- A sequence without INIT runs on the engine with another FINAL_XOR_VALUE in step with the first
engine: the results differ by the XOR of the two values, and nothing else does (R88). -/
theorem runCommands_withFinalXor {is : List Instr} {s t : State} (x : Word) (rs : List Word)
    (his : ∀ i ∈ is, i.isInit = false) (h : runCommands is s = .next t) :
    ∃ vs, t.results = s.results ++ vs ∧ runCommands is (s.withFinalXor x rs) =
      .next (t.withFinalXor x (rs ++ vs.map (changeFinalXor s.params.finalXorValue x))) := by
  induction is generalizing s rs with
  | nil =>
    cases h
    exact ⟨[], (List.append_nil _).symm, by rw [List.map_nil, List.append_nil, runCommands]⟩
  | cons i is ih =>
    obtain ⟨hi, his⟩ := List.forall_mem_cons.mp his
    obtain ⟨u, hexec, hrun⟩ := runCommands_cons_next h
    obtain ⟨hparams, vs, hvs, hexec'⟩ := exec_withFinalXor x rs hi hexec
    obtain ⟨vs', hvs', hrun'⟩ := ih (rs ++ vs.map (changeFinalXor s.params.finalXorValue x)) his hrun
    refine ⟨vs ++ vs', by rw [hvs', hvs, List.append_assoc], ?_⟩
    rw [runCommands_cons_of_next hexec', hrun', hparams, List.map_append, List.append_assoc]

/-- Settles O46: the run in step, begun with the same results delivered; an INIT loads the other final
XOR field, truncated, and reads it nowhere else. -/
theorem finalXorChangesResultsOnly : Obligations.FinalXorChangesResultsOnly := by
  constructor
  · intro is s t x his h
    exact runCommands_withFinalXor x s.results his h
  · intro p s t x h
    obtain ⟨_, ⟨rfl⟩, hw, rfl⟩ | ⟨_, ⟨⟩, -⟩ | ⟨_, ⟨⟩, -⟩ | ⟨⟨⟩, -⟩ | ⟨⟨⟩, -⟩ := exec_next_cases h
    exact exec_init_of_mem_widths s (of_decide_eq_true hw)

end Sys2Proof.Machine
end

section
/-! ACCUM and the GET after it (45_properties.md R89). -/

namespace Sys2Proof.Machine

/-- Settles O24: the value ACCUM delivers is what it keeps XOR FINAL_XOR_VALUE, and that is the value a
GET forms. -/
theorem accumReturnsWhatTheNextGetReturns : Obligations.AccumReturnsWhatTheNextGetReturns := by
  intro data s t h
  obtain ⟨_, ⟨⟩, -⟩ | ⟨_, ⟨⟩, -⟩ | ⟨_, ⟨rfl⟩, hs, rfl⟩ | ⟨⟨⟩, -⟩ | ⟨⟨⟩, -⟩ := exec_next_cases h
  exact ⟨rfl, _, exec_get_of_configured hs, rfl⟩

end Sys2Proof.Machine
end

section
/-! What the commands leave in the registers, and the unconfigured engine (70_reset_and_hazards.md R102,
R103). -/

namespace Sys2Proof.Machine

/-! ## The seven registers after each command (R102) -/

/-- Every command that completes leaves a configured engine: INIT configures it, and the other four run
on a configured engine only and keep that condition (R24, R102). -/
theorem configured_of_exec {i : Instr} {s t : State} (h : exec i s = .next t) :
    t.configured = true := by
  obtain ⟨p, -, -, rfl⟩ | ⟨d, -, hs, rfl⟩ | ⟨d, -, hs, rfl⟩ | ⟨-, hs, rfl⟩ | ⟨-, hs, rfl⟩ :=
    exec_next_cases h
  · exact State.configure_configured ..
  · rw [State.deliver_configured, hs]
  · rw [State.deliver_configured, State.setAccumulate_configured, hs]
  · rw [State.restoreInitial_configured, hs]
  · rw [State.deliver_configured, State.restoreInitial_configured, hs]

/-- Settles O14, command by command: the registers of the end state are those its register write leaves,
and a delivery writes none of them. -/
theorem softwareResetsAndWhatEachCommandLeaves :
    Obligations.SoftwareResetsAndWhatEachCommandLeaves := by
  intro i s t h
  refine ⟨configured_of_exec h, ?_⟩
  obtain ⟨p, rfl, -, rfl⟩ | ⟨d, rfl, -, rfl⟩ | ⟨d, rfl, -, rfl⟩ | ⟨rfl, -, rfl⟩ | ⟨rfl, -, rfl⟩ :=
    exec_next_cases h
  · exact ⟨State.configure_params .., State.configure_accumulate ..⟩
  · exact ⟨State.deliver_params .., State.deliver_accumulate ..⟩
  · simp only [State.deliver_params, State.deliver_accumulate, State.setAccumulate_params,
      State.setAccumulate_accumulate, State.process, and_self]
  · exact ⟨State.restoreInitial_params .., State.restoreInitial_accumulate ..⟩
  · simp only [State.deliver_params, State.deliver_accumulate, State.restoreInitial_params,
      State.restoreInitial_accumulate, and_self]

/-! ## Before the first INIT (R103) -/

/-- On the unconfigured engine every command other than INIT stops at its guard (R103). -/
theorem exec_of_unconfigured {i : Instr} {s : State} (hi : i.isInit = false)
    (hs : s.configured = false) : exec i s = .refused .unconfigured := by
  cases i with
  | init p => cases hi
  | calculate data => rw [exec, execCalc, State.ifConfigured_false _ hs]
  | accum data => rw [exec, execAccum, State.ifConfigured_false _ hs]
  | reset => rw [exec, execReset, State.ifConfigured_false _ hs]
  | get => rw [exec, execGet, State.ifConfigured_false _ hs]

/-- Settles O12, from the guard of the four commands; INIT with a legal WIDTH completes on every
engine. -/
theorem unconfiguredEngineRefusesAllButInit : Obligations.UnconfiguredEngineRefusesAllButInit :=
  fun s hs => ⟨fun _ => exec_of_unconfigured rfl hs, fun _ => exec_of_unconfigured rfl hs,
    exec_of_unconfigured rfl hs, exec_of_unconfigured rfl hs,
    fun _ hw => ⟨_, exec_init_of_mem_widths s hw, State.configure_configured ..⟩⟩

end Sys2Proof.Machine
end

section
/-! Decode and encode agree in both directions (30_encoding.md sections 2 to 5): the frame of a
well-formed command decodes to it, and bytes that decode are the frame of a well-formed command. -/

namespace Sys2Proof.Machine

/-- Settles O3: the frame of every format is read back, with the bytes behind it left over. -/
theorem decodeOfEncodeIsTheCommand : Obligations.DecodeOfEncodeIsTheCommand :=
  fun _ rest h => decode_encode_append rest h

/-! ## Format D: accepted bytes are LEN and LEN data bytes -/

/-- The bits that bytes stand for are serialised as those bytes (R39). -/
theorem leBytes_toNat_ofNat_leNat (bs : List Byte) :
    leBytes bs.length (BitVec.ofNat (8 * bs.length) (leNat bs)).toNat = bs := by
  have hlt : leNat bs < 2 ^ (8 * bs.length) := (leNat_lt bs).trans_eq (pow_mul 2 8 _).symm
  rw [BitVec.toNat_ofNat, Nat.mod_eq_of_lt hlt, leBytes_leNat]

/-- Four bytes are the serialisation of the LEN they hold (R39, R42). -/
theorem leBytes_lenField {header : List Byte} (h : header.length = 4) :
    leBytes 4 (lenField header) = header := by
  have hbytes := leBytes_toNat_ofNat_leNat header
  rwa [h] at hbytes

/-- What the decoder accepts behind the opcode byte of a format D frame: LEN, and data of that length
(R42). -/
theorem decodeData_ok {mk : List Byte → Instr} {bytes rest : List Byte} {i : Instr}
    (h : decodeData mk bytes = .ok (i, rest)) :
    ∃ data, i = mk data ∧ lenLegal data = true ∧ bytes = leBytes 4 data.length ++ (data ++ rest) := by
  unfold decodeData at h
  split at h
  · cases h
  · next hheader =>
    dsimp only at h
    split at h
    · cases h
    · next hbody =>
      cases h
      have hlen : ((bytes.drop 4).take (lenField (bytes.take 4))).length = lenField (bytes.take 4) :=
        List.length_take_of_le (Nat.not_lt.mp hbody)
      have htake : (bytes.take 4).length = 4 := List.length_take_of_le (Nat.not_lt.mp hheader)
      refine ⟨_, rfl, ?_, ?_⟩
      · rw [lenLegal, decide_eq_true_iff, hlen]
        exact BitVec.isLt _
      · rw [hlen, leBytes_lenField htake, List.take_append_drop, List.take_append_drop]

/-! ## Format P: accepted bits are the frame of their fields -/

/-- A frame with INIT's opcode byte and reserved bits 0 is the frame of the record in its fields
(R38). -/
theorem initFrame_initFields {f : BitVec 216} (hop : f.toNat % 2 ^ 8 = 1)
    (hres : f.extractLsb' 18 6 = 0) : initFrame (initFields f) = f := by
  have hzero : f.toNat / 2 ^ 18 % 2 ^ 6 = 0 := by
    rw [← Nat.shiftRight_eq_div_pow, ← BitVec.extractLsb'_toNat, hres]
    rfl
  have hlt := f.isLt
  have hir : (f.getLsbD 16).toNat = f.toNat / 2 ^ 16 % 2 := Nat.toNat_testBit f.toNat 16
  have hrr : (f.getLsbD 17).toNat = f.toNat / 2 ^ 17 % 2 := Nat.toNat_testBit f.toNat 17
  apply BitVec.eq_of_toNat_eq
  rw [toNat_initFrame]
  simp only [initFields, BitVec.extractLsb'_toNat, Nat.shiftRight_eq_div_pow, hir, hrr]
  omega

/-- The bits of an INIT frame are serialised as its bytes (R39). -/
theorem leBytes_toNat_initBits {body : List Byte} (h : body.length = 26) :
    leBytes 27 (initBits body).toNat = Opcode.init :: body := by
  have hbytes := leBytes_toNat_ofNat_leNat (Opcode.init :: body)
  rwa [List.length_cons, h] at hbytes

/-- The low byte of an INIT frame is its opcode (R38, R40). -/
theorem toNat_initBits_mod (body : List Byte) : (initBits body).toNat % 2 ^ 8 = 1 := by
  have h1 : Opcode.init.toNat = 1 := rfl
  rw [initBits, leNat, BitVec.toNat_ofNat, h1]
  omega

/-- What the decoder accepts behind INIT's opcode byte: the rest of the frame of a record with a legal
WIDTH (R41, R44). -/
theorem decode_init_ok {bytes rest : List Byte} {i : Instr}
    (h : decode (Opcode.init :: bytes) = .ok (i, rest)) :
    i.wellFormed = true ∧ Opcode.init :: bytes = encode i ++ rest := by
  have hwhole : 26 ≤ bytes.length := by
    by_contra hshort
    rw [decode, if_pos rfl, decodeInit, if_pos (Nat.not_le.mp hshort)] at h
    cases h
  have hbody : (bytes.take 26).length = 26 := List.length_take_of_le hwhole
  have hsplit := decode_init_cases (bytes.drop 26) hbody
  rw [List.take_append_drop, h] at hsplit
  obtain ⟨⟨hwidth, hres⟩, hok⟩ | ⟨-, e, herr⟩ := hsplit
  · cases hok
    refine ⟨hwidth, ?_⟩
    rw [encode, initFrame_initFields (toNat_initBits_mod _) hres, leBytes_toNat_initBits hbody,
      List.cons_append, List.take_append_drop]
  · cases herr

/-! ## Every format -/

/-- Inversion of the decoder: what it accepts is the frame of a well-formed command, and what it leaves
are the bytes behind that frame (R38 to R44). -/
theorem decode_ok {bytes rest : List Byte} {i : Instr} (h : decode bytes = .ok (i, rest)) :
    i.wellFormed = true ∧ bytes = encode i ++ rest := by
  cases bytes with
  | nil => cases h
  | cons op bytes =>
    by_cases hinit : op = Opcode.init
    · subst hinit
      exact decode_init_ok h
    rw [decode, if_neg hinit] at h
    split at h
    · next hcalc =>
      obtain ⟨data, rfl, hlen, rfl⟩ := decodeData_ok h
      refine ⟨hlen, ?_⟩
      rw [encode, encodeData_eq_cons _ hlen, hcalc, List.cons_append, List.append_assoc]
    split at h
    · next haccum =>
      obtain ⟨data, rfl, hlen, rfl⟩ := decodeData_ok h
      refine ⟨hlen, ?_⟩
      rw [encode, encodeData_eq_cons _ hlen, haccum, List.cons_append, List.append_assoc]
    split at h
    · next hreset =>
      cases h
      exact ⟨rfl, congrArg (· :: rest) hreset⟩
    split at h
    · next hget =>
      cases h
      exact ⟨rfl, congrArg (· :: rest) hget⟩
    · cases h

/-- Settles O4, by the inversion of the decoder. -/
theorem acceptedBytesAreTheFrameOfTheCommand : Obligations.AcceptedBytesAreTheFrameOfTheCommand :=
  fun _ _ _ h => decode_ok h

/-- Settles O1: three formats, five frames, computed. -/
theorem listedFramesDecodeToTheirCommands : Obligations.ListedFramesDecodeToTheirCommands := by
  refine ⟨?_, ?_, ?_, rfl, rfl⟩
  · decide
  · decide
  · decide

end Sys2Proof.Machine
end

section
/-! What no command changes: the table memory and the host's side of the machine (20_memory.md sections
2 and 5, 30_encoding.md section 6). -/

namespace Sys2Proof.Machine

/-- No command writes the table memory (R27). -/
theorem exec_keeps_table {i : Instr} {s t : State} (h : exec i s = .next t) : t.table = s.table := by
  obtain ⟨p, -, -, rfl⟩ | ⟨d, -, -, rfl⟩ | ⟨d, -, -, rfl⟩ | ⟨-, -, rfl⟩ | ⟨-, -, rfl⟩ :=
    exec_next_cases h
  · exact State.configure_table ..
  · exact State.deliver_table ..
  · rw [State.deliver_table, State.setAccumulate_table]
  · exact State.restoreInitial_table ..
  · rw [State.deliver_table, State.restoreInitial_table]

/-- No command takes bytes from the command port by itself (R37). -/
theorem exec_keeps_pending {i : Instr} {s t : State} (h : exec i s = .next t) :
    t.pending = s.pending := by
  obtain ⟨p, -, -, rfl⟩ | ⟨d, -, -, rfl⟩ | ⟨d, -, -, rfl⟩ | ⟨-, -, rfl⟩ | ⟨-, -, rfl⟩ :=
    exec_next_cases h
  · exact State.configure_pending ..
  · exact State.deliver_pending ..
  · rw [State.deliver_pending, State.setAccumulate_pending]
  · exact State.restoreInitial_pending ..
  · rw [State.deliver_pending, State.restoreInitial_pending]

/-- Settles O15: the table, the port and the index by the three frame lemmas, the delivered results
because a command only appends to them (R45). -/
theorem noCommandChangesTableOrHostSide : Obligations.NoCommandChangesTableOrHostSide := by
  intro i s t h
  have htable := exec_keeps_table h
  obtain ⟨vs, hresults, -⟩ := eachCommandDeliversItsResults i s t h
  refine ⟨fun k => ?_, htable, exec_keeps_pending h, exec_keeps_commandIndex h, vs, hresults.symm⟩
  rw [State.tableRead, State.tableRead, htable]

end Sys2Proof.Machine
end

section
/-! The invariant (10_state.md section 2, 45_properties.md R87): it holds after power-on reset and every
step keeps it. -/

namespace Sys2Proof.Machine

/-- Registers that fit still do when ACCUMULATE alone is written, with a value of w bits (R17). -/
theorem RegistersFit.of_params_eq {s t : State} (h : RegistersFit s) (hp : t.params = s.params)
    (hacc : fits t.w t.accumulate) : RegistersFit t := by
  have hw : t.w = s.w := congrArg (·.width.toNat) hp
  refine ⟨?_, ?_, ?_, ?_, hacc⟩
  · rw [hw]; exact h.width
  · rw [hw, hp]; exact h.polynomial
  · rw [hw, hp]; exact h.initialValue
  · rw [hw, hp]; exact h.finalXorValue

/-- INIT truncates what it loads, so the registers fit the WIDTH of the record (R50). -/
theorem registersFit_configure_truncParams (s : State) {p : Params}
    (h : p.width.toNat ∈ Config.widths) :
    RegistersFit (s.configure (truncParams p) (truncParams p).initialValue) :=
  ⟨h, fits_trunc _ _, fits_trunc _ _, fits_trunc _ _, fits_trunc _ _⟩

/-- After every command the registers fit: INIT loads registers that do, and the other commands write
ACCUMULATE only (R17, R87). -/
theorem registersFit_of_exec {i : Instr} {s t : State} (hinv : Invariant s)
    (h : exec i s = .next t) : RegistersFit t := by
  have hacc := fits_accumulate_of_exec hinv h
  obtain ⟨p, -, hw, rfl⟩ | ⟨d, -, hs, rfl⟩ | ⟨d, -, hs, rfl⟩ | ⟨-, hs, rfl⟩ | ⟨-, hs, rfl⟩ :=
    exec_next_cases h
  · exact registersFit_configure_truncParams s (of_decide_eq_true hw)
  · exact (hinv.registers hs).of_params_eq rfl hacc
  · exact (hinv.registers hs).of_params_eq rfl hacc
  · exact (hinv.registers hs).of_params_eq rfl hacc
  · exact (hinv.registers hs).of_params_eq rfl hacc

/-- Every command keeps the invariant: it leaves the table as it is and registers that fit. -/
theorem exec_keeps_invariant {i : Instr} {s t : State} (hinv : Invariant s)
    (h : exec i s = .next t) : Invariant t where
  table := by
    rw [exec_keeps_table h]
    exact hinv.table
  registers _ := registersFit_of_exec hinv h

/-- Moving past a frame touches neither the table nor a register. -/
theorem Invariant.consume {s : State} (h : Invariant s) (rest : List Byte) :
    Invariant (s.consume rest) where
  table := h.table
  registers hs := (h.registers hs).of_params_eq rfl (h.registers hs).accumulate

/-- Settles O43: a step moves past a frame and runs its command, and both keep the invariant. -/
theorem everyStepKeepsTheInvariant : Obligations.EveryStepKeepsTheInvariant := by
  intro s t hinv h
  obtain ⟨i, rest, -, hexec⟩ := step_next_cases h
  exact exec_keeps_invariant (hinv.consume rest) hexec

/-- Settles O44: nothing is supplied in the table, and the engine is unconfigured. -/
theorem resetStateMeetsTheInvariant : Obligations.ResetStateMeetsTheInvariant where
  table := State.reset_wf
  registers h := absurd h Bool.false_ne_true

end Sys2Proof.Machine
end

section
/-! When a step completes (60_exceptions.md R91, 70_reset_and_hazards.md R103): exactly when a command
stands at the front of the command port and the engine's condition gives it a meaning. -/

namespace Sys2Proof.Machine

/-- A step on bytes that decode executes the command past its frame (R33, R37). -/
theorem step_of_decode_ok {s : State} {i : Instr} {rest : List Byte}
    (h : decode s.pending = .ok (i, rest)) : step s = exec i (s.consume rest) := by
  rw [step, State.fetch, h]

/-- Settles O7: the state past the frame is `State.consume`. -/
theorem stepRunsTheDecodedCommand : Obligations.StepRunsTheDecodedCommand :=
  fun _ _ _ h => step_of_decode_ok h

/-- Every well-formed command completes on a configured engine, and INIT on every engine (R91). -/
theorem exists_exec_next {i : Instr} {s : State} (hi : i.wellFormed = true)
    (h : s.configured = true ∨ ∃ p, i = .init p) : ∃ t, exec i s = .next t := by
  obtain hs | ⟨p, rfl⟩ := h
  · cases i with
    | init p => exact ⟨_, exec_init_of_mem_widths s (of_decide_eq_true hi)⟩
    | calculate data => exact ⟨_, exec_calculate_of_configured data hs⟩
    | accum data => exact ⟨_, exec_accum_of_configured data hs⟩
    | reset => exact ⟨_, exec_reset_of_configured hs⟩
    | get => exact ⟨_, exec_get_of_configured hs⟩
  · exact ⟨_, exec_init_of_mem_widths s (of_decide_eq_true hi)⟩

/-- A command that completes was issued to a configured engine or is an INIT (R103). -/
theorem configured_or_init_of_exec {i : Instr} {s t : State} (h : exec i s = .next t) :
    s.configured = true ∨ ∃ p, i = .init p := by
  obtain ⟨p, hi, -⟩ | ⟨_, -, hs, -⟩ | ⟨_, -, hs, -⟩ | ⟨-, hs, -⟩ | ⟨-, hs, -⟩ := exec_next_cases h
  · exact .inr ⟨p, hi⟩
  · exact .inl hs
  · exact .inl hs
  · exact .inl hs
  · exact .inl hs

/-- Settles O9. A completed step has decoded a command that completed; conversely a command the decoder
answers is well formed, so the engine's condition is all it needs. -/
theorem stepCompletesExactlyOnCommandsWithAMeaning :
    Obligations.StepCompletesExactlyOnCommandsWithAMeaning := by
  intro s
  constructor
  · rintro ⟨t, h⟩
    obtain ⟨i, rest, hdecode, hexec⟩ := step_next_cases h
    have hcond := configured_or_init_of_exec hexec
    rw [State.consume_configured] at hcond
    exact ⟨i, rest, hdecode, hcond⟩
  · rintro ⟨i, rest, hdecode, hcond⟩
    obtain ⟨hwf, -⟩ := decode_ok hdecode
    rw [step_of_decode_ok hdecode]
    exact exists_exec_next hwf hcond

/-- Settles O10: the step executes the command past its frame, and the command leaves the port and the
index as the fetch left them. -/
theorem wellFormedCommandOnConfiguredEngineCompletes :
    Obligations.WellFormedCommandOnConfiguredEngineCompletes := by
  intro s i rest hwf hcond hp
  obtain ⟨t, hexec⟩ := exists_exec_next (s := s.consume rest) hwf hcond
  refine ⟨t, ?_, hexec, exec_keeps_pending hexec, exec_keeps_commandIndex hexec,
    configured_of_exec hexec⟩
  rw [step_of_pending_eq_encode hwf hp, hexec]

end Sys2Proof.Machine
end

section
/-! What an INIT forgets and when it is refused (40_configuration.md R50, R51, 30_encoding.md R44), and
what a power-on reset leaves (70_reset_and_hazards.md R101). -/

namespace Sys2Proof.Machine

/-- INIT overwrites every register, so its outcome does not depend on what they held (R50, R51). -/
theorem exec_init_with_registers (p : Params) (s : State) (q : Params) (a : Word) (c : Bool) :
    exec (.init p) { s with params := q, accumulate := a, configured := c } = exec (.init p) s := by
  rw [exec, exec, execInit, execInit]
  split <;> rfl

/-- Settles O18: loading the record leaves nothing of the registers before it. -/
theorem initForgetsEveryRegister : Obligations.InitForgetsEveryRegister :=
  exec_init_with_registers

/-- Settles O13: a power-on reset writes the registers only, and INIT forgets them. -/
theorem powerOnResetUnconfiguresAndKeepsTheTable :
    Obligations.PowerOnResetUnconfiguresAndKeepsTheTable := by
  refine ⟨rfl, rfl, fun s => ⟨State.powerOn_configured s, fun i => ?_, fun p => ?_⟩⟩
  · rw [State.powerOn_tableRead]
  · exact exec_init_with_registers p s Params.powerOn 0 false

/-- Settles O19: INIT's own test of WIDTH fails. -/
theorem initWithIllegalWidthIsRefused : Obligations.InitWithIllegalWidthIsRefused := by
  intro p s h
  have hillegal : ¬ p.widthLegal = true := mt of_decide_eq_true h
  rw [exec, execInit, if_neg hillegal]

end Sys2Proof.Machine
end

section
/-! GET on a fresh engine (44_incremental.md R77, corner cases of GET). -/

namespace Sys2Proof.Machine

/-- GET on a fresh engine delivers INITIAL_VALUE XOR FINAL_XOR_VALUE, in every configuration: nothing is
reflected (R77). -/
theorem exec_get_of_fresh {s : State} (hs : s.configured = true) (hfresh : Fresh s) :
    exec .get s =
      .next (s.restoreInitial.deliver (s.params.initialValue ^^^ s.params.finalXorValue)) := by
  have hacc : s.accumulate = s.params.initialValue := hfresh
  rw [exec_get_of_configured hs, hacc]

/-- INIT, RESET and GET leave a fresh engine (R102). -/
theorem fresh_of_exec {i : Instr} {s t : State} (h : exec i s = .next t)
    (hi : i.isInit = true ∨ i = .reset ∨ i = .get) : Fresh t := by
  obtain ⟨-, hregs⟩ := softwareResetsAndWhatEachCommandLeaves i s t h
  cases i with
  | init p => exact hregs.2
  | calculate data => simp [Instr.isInit] at hi
  | accum data => simp [Instr.isInit] at hi
  | reset => exact hregs.2.trans (congrArg _ hregs.1.symm)
  | get => exact hregs.2.trans (congrArg _ hregs.1.symm)

/-- Settles O27: each of the three leaves a configured and fresh engine. -/
theorem getOnAFreshEngineReturnsInitialXorFinal :
    Obligations.GetOnAFreshEngineReturnsInitialXorFinal := by
  intro i s t h hi
  exact ⟨_, exec_get_of_fresh (configured_of_exec h) (fresh_of_exec h hi), State.deliver_results ..⟩

end Sys2Proof.Machine
end

section
/-! CALC stands beside the accumulation (43_oneshot.md R70, R72): it neither reads nor writes
ACCUMULATE, and no command reads the results already delivered, so leaving the CALCs out of a sequence
takes their results away and changes nothing else. -/

namespace Sys2Proof.Machine

/-- Settles O21: CALC commutes with a write of ACCUMULATE. -/
theorem calcIsIndependentOfAccumulate : Obligations.CalcIsIndependentOfAccumulate := by
  intro data s a
  rw [exec, exec, execCalc, execCalc]
  exact State.ifConfigured_commutes (·.setAccumulate a) rfl rfl

/-! ## Other results delivered before -/

/-- The same engine with other results delivered. -/
def State.withResults (s : State) (results : List Word) : State := { s with results := results }

/-- A command does the same whatever has been delivered before, and delivers its values behind it
(R45). -/
theorem exec_withResults {i : Instr} {s t : State} (rs : List Word) (h : exec i s = .next t) :
    ∃ vs, t.results = s.results ++ vs ∧
      exec i (s.withResults rs) = .next (t.withResults (rs ++ vs)) := by
  obtain ⟨p, rfl, hw, rfl⟩ | ⟨d, rfl, hs, rfl⟩ | ⟨d, rfl, hs, rfl⟩ | ⟨rfl, hs, rfl⟩ | ⟨rfl, hs, rfl⟩ :=
    exec_next_cases h
  · refine ⟨[], (List.append_nil _).symm, ?_⟩
    rw [exec_init_of_mem_widths _ (of_decide_eq_true hw), List.append_nil]
    rfl
  · exact ⟨_, State.deliver_results .., exec_calculate_of_configured d (s := s.withResults rs) hs⟩
  · exact ⟨_, State.deliver_results .., exec_accum_of_configured d (s := s.withResults rs) hs⟩
  · refine ⟨[], (List.append_nil _).symm, ?_⟩
    rw [exec_reset_of_configured (s := s.withResults rs) hs, List.append_nil]
    rfl
  · exact ⟨_, State.deliver_results .., exec_get_of_configured (s := s.withResults rs) hs⟩

/-- CALC delivers one value and does nothing else (R70). -/
theorem exec_isCalc_next {i : Instr} {s t : State} (hi : i.isCalc = true) (h : exec i s = .next t) :
    ∃ v, t = s.deliver v := by
  cases i with
  | calculate data =>
    obtain ⟨_, ⟨⟩, -⟩ | ⟨_, -, -, rfl⟩ | ⟨_, ⟨⟩, -⟩ | ⟨⟨⟩, -⟩ | ⟨⟨⟩, -⟩ := exec_next_cases h
    exact ⟨_, rfl⟩
  | init p => cases hi
  | accum data => cases hi
  | reset => cases hi
  | get => cases hi

/-! ## Leaving the CALCs out -/

/-- The sequence without its CALCs, begun with any results `rs` delivered, runs in step with the whole
sequence: it ends in the same engine, and delivers the whole sequence's values `vs` without those of
the CALCs (R72). -/
theorem runCommands_filter_not_isCalc {is : List Instr} {s t : State} (rs : List Word)
    (h : runCommands is s = .next t) :
    ∃ vs ws, t.results = s.results ++ vs ∧ ws.Sublist vs ∧
      ws.length + (is.filter Instr.isCalc).length = vs.length ∧
      runCommands (is.filter fun i => !i.isCalc) (s.withResults rs) =
        .next (t.withResults (rs ++ ws)) := by
  induction is generalizing s rs with
  | nil =>
    cases h
    exact ⟨[], [], (List.append_nil _).symm, List.Sublist.refl _, rfl, by
      rw [List.append_nil]; rfl⟩
  | cons i is ih =>
    obtain ⟨u, hexec, hrun⟩ := runCommands_cons_next h
    cases hi : i.isCalc with
    | true =>
      obtain ⟨v, rfl⟩ := exec_isCalc_next hi hexec
      obtain ⟨vs, ws, hvs, hsub, hlen, hrun'⟩ := ih rs hrun
      refine ⟨v :: vs, ws, ?_, hsub.cons v, ?_, ?_⟩
      · rw [hvs, State.deliver_results, List.append_assoc, List.singleton_append]
      · rw [List.filter_cons_of_pos hi, List.length_cons, List.length_cons, ← hlen, Nat.add_assoc]
      · rw [List.filter_cons_of_neg (by simp [hi])]
        exact hrun'
    | false =>
      obtain ⟨vs₁, hvs₁, hexec'⟩ := exec_withResults rs hexec
      obtain ⟨vs, ws, hvs, hsub, hlen, hrun'⟩ := ih (rs ++ vs₁) hrun
      refine ⟨vs₁ ++ vs, vs₁ ++ ws, ?_, hsub.append_left vs₁, ?_, ?_⟩
      · rw [hvs, hvs₁, List.append_assoc]
      · rw [List.filter_cons_of_neg (by simp [hi]), List.length_append, List.length_append, ← hlen,
          Nat.add_assoc]
      · rw [List.filter_cons_of_pos (by simp [hi]), runCommands_cons_of_next hexec', hrun',
          List.append_assoc]

/-- Settles O22: the run in step, begun with the same results delivered. -/
theorem accumulationProceedsAsIfCalcsWereAbsent :
    Obligations.AccumulationProceedsAsIfCalcsWereAbsent := by
  intro is s t h
  obtain ⟨vs, ws, hvs, hsub, hlen, hrun⟩ := runCommands_filter_not_isCalc s.results h
  refine ⟨_, hrun, rfl, rfl, ?_, ?_⟩
  · rw [hvs]
    exact hsub.append_left s.results
  · rw [hvs, List.length_append, ← hlen, ← Nat.add_assoc, ← List.length_append]
    rfl

end Sys2Proof.Machine
end

section
/-! The byte folds seen differently (42_datapath.md R64 corner case (d), R61, R66): `fold_B` with the
data byte kept out of the shifted register, and the buffer fold with the branch chosen once. -/

namespace Sys2Proof.Machine

/-- The data byte stands in the top 8 bits of `t`, so the shift by 8 moves it out of the register
(R64). -/
theorem trunc_mixB_shiftLeft {w : Nat} (hw : 8 ≤ w) (r : Word) (x : Byte) :
    trunc w (mixB w r x <<< 8) = trunc w (r <<< 8) := by
  have hout : x.setWidth 64 <<< (w - 8) <<< 8 = x.setWidth 64 <<< w := by
    rw [← BitVec.shiftLeft_add, Nat.sub_add_cancel hw]
  rw [mixB, BitVec.shiftLeft_xor_distrib, trunc_xor, hout, trunc_shiftLeft_self]
  exact BitVec.xor_zero

/-- A byte moved up inside the container and back is the byte. -/
theorem setWidth_shiftLeft_ushiftRight {k : Nat} (hk : k ≤ 56) (x : Byte) :
    ((x.setWidth 64 <<< k) >>> k).setWidth 8 = x := by
  apply BitVec.eq_of_getLsbD_eq
  intro i hi
  have h64 : k + i < 64 := by omega
  have hi64 : i < 64 := by omega
  simp [hi, h64, hi64]

/-- Branch B's index is the top byte of the register XOR the data byte (R64, R68). -/
theorem indexB_mixB {w : Nat} (hw64 : w ≤ 64) (r : Word) (x : Byte) :
    indexB w (mixB w r x) = (r >>> (w - 8)).setWidth 8 ^^^ x := by
  rw [indexB, mixB, BitVec.ushiftRight_xor_distrib, BitVec.setWidth_xor,
    setWidth_shiftLeft_ushiftRight (by omega)]

/-- Settles O33: neither the shifted register nor the index needs `t`. -/
theorem foldBEquivalentForm : Obligations.FoldBEquivalentForm := by
  intro w ir read r b hwidth _
  obtain ⟨hw, hw64, -⟩ := width_bounds hwidth
  rw [foldB, trunc_mixB_shiftLeft hw, entry, indexB_mixB hw64]

/-- With both flags 1 every byte is folded by Branch A (R61, R62). -/
theorem foldByte_of_reflected {p : Params} (read : Byte → Word)
    (h : p.inputReflected = true ∧ p.resultReflected = true) :
    foldByte p read = foldA p.width.toNat read := by
  obtain ⟨hir, hrr⟩ := h
  funext r b
  rw [foldByte, selectBranch, hir, hrr]

/-- With any other flags every byte is folded by Branch B (R61, R64). -/
theorem foldByte_of_not_reflected {p : Params} (read : Byte → Word)
    (h : ¬ (p.inputReflected = true ∧ p.resultReflected = true)) :
    foldByte p read = foldB p.width.toNat p.inputReflected read := by
  have hbranch : selectBranch p = .b := by
    unfold selectBranch
    split
    · next hir hrr => exact absurd ⟨hir, hrr⟩ h
    · rfl
  funext r b
  rw [foldByte, hbranch]

/-- Settles O34: the flags alone select the fold, so it is the same for every byte. -/
theorem bufferIsFoldedInOrderByTheSelectedBranch :
    Obligations.BufferIsFoldedInOrderByTheSelectedBranch := by
  intro p read r data
  rw [foldBuffer]
  split_ifs with h
  · rw [foldByte_of_reflected read h]
  · rw [foldByte_of_not_reflected read h]

end Sys2Proof.Machine
end

section
/-! Chunking (45_properties.md section 2, source property 1): what a sequence of ACCUMs returns, against
one CALC of the joined data. -/

namespace Sys2Proof.Machine

/-! ## The results of a sequence of ACCUMs -/

/-- The last delivered value is ACCUMULATE XOR FINAL_XOR_VALUE (R89). -/
def ReportsRegister (s : State) : Prop :=
  s.results.getLast? = some (s.accumulate ^^^ s.params.finalXorValue)

/-- An ACCUM returns the register it leaves, XOR FINAL_XOR_VALUE (R89). -/
theorem reportsRegister_of_exec_accum {data : List Byte} {s t : State}
    (h : exec (.accum data) s = .next t) : ReportsRegister t := by
  obtain ⟨hresults, -⟩ := accumReturnsWhatTheNextGetReturns data s t h
  rw [ReportsRegister, hresults, List.getLast?_concat]

/-- A sequence of ACCUMs writes ACCUMULATE and the result port only, and where it holds an ACCUM its
last result reports the register (R73, R80, R89). -/
theorem runCommands_accums_eq (chunks : List (List Byte)) {s : State} (hs : s.configured = true) :
    ∃ rs, runCommands (chunks.map .accum) s =
        .next ((s.setAccumulate
          (chunks.foldl (accumValue s.params s.tableRead) s.accumulate)).withResults rs) ∧
      (chunks ≠ [] ∨ ReportsRegister s → rs.getLast? = some
        (chunks.foldl (accumValue s.params s.tableRead) s.accumulate ^^^ s.params.finalXorValue)) := by
  induction chunks generalizing s with
  | nil => exact ⟨s.results, rfl, fun h => h.resolve_left (absurd rfl)⟩
  | cons d chunks ih =>
    have hexec := exec_accum_of_configured d hs
    obtain ⟨rs, hrun, hlast⟩ := ih (s := (s.setAccumulate (s.process s.accumulate d).stored).deliver
      (s.process s.accumulate d).visible) hs
    refine ⟨rs, ?_, fun _ => hlast (.inr (reportsRegister_of_exec_accum hexec))⟩
    rw [List.map_cons, runCommands_cons_of_next hexec]
    exact hrun

/-- On a fresh engine outside output-only a sequence of ACCUMs leaves in ACCUMULATE what CALC folds of
the joined data (R80). -/
theorem foldl_accumValue_of_fresh (chunks : List (List Byte)) {s : State} (hfresh : Fresh s)
    (hout : ¬ outputOnly s.params) :
    chunks.foldl (accumValue s.params s.tableRead) s.accumulate =
      foldBuffer s.params s.tableRead s.params.initialValue chunks.flatten := by
  have hacc : s.accumulate = s.params.initialValue := hfresh
  rw [accumValue_of_not_outputOnly _ hout, foldl_foldBuffer, hacc]

/-- Settles O37: the register after the chunks is CALC's fold, the last ACCUM reports it, and GET
returns it and makes the engine fresh again. -/
theorem chunkingEquivalence : Obligations.ChunkingEquivalence := by
  intro chunks s hs hfresh hout
  obtain ⟨-, hcalc⟩ := calcReturnsTheChecksumAndWritesNoRegister chunks.flatten
  obtain ⟨_, v, hexec, rfl, -, hv, -⟩ := hcalc s hs
  obtain ⟨rs, hrun, hlast⟩ := runCommands_accums_eq chunks hs
  rw [foldl_accumValue_of_fresh chunks hfresh hout, ← hv hout] at hlast
  rw [foldl_accumValue_of_fresh chunks hfresh hout] at hrun
  refine ⟨v, _, _, hexec, hrun, fun hne => hlast (.inl hne), exec_get_of_configured hs, ?_⟩
  have hacc : s.accumulate = s.params.initialValue := hfresh
  rw [hv hout, hacc]
  rfl

/-! ## Output-only -/

/-- On a fresh engine one ACCUM returns what CALC returns, in every configuration (R70, R73). -/
theorem exec_accum_delivers_calculate_of_fresh (data : List Byte) {s : State}
    (hs : s.configured = true) (hfresh : Fresh s) :
    ∃ v u, exec (.calculate data) s = .next (s.deliver v) ∧ exec (.accum data) s = .next u ∧
      u.results = s.results ++ [v] := by
  have hacc : s.accumulate = s.params.initialValue := hfresh
  refine ⟨_, _, exec_calculate_of_configured data hs, exec_accum_of_configured data hs, ?_⟩
  rw [State.deliver_results, State.setAccumulate_results, hacc]

/-- With no data CALC and GET return the same on a fresh output-only engine exactly when INITIAL_VALUE
is a palindrome (R83). -/
theorem calculate_nil_agrees_with_get_iff {s : State} (hs : s.configured = true) (hfresh : Fresh s)
    (hout : outputOnly s.params) :
    (∃ v t u, exec (.calculate []) s = .next t ∧ t.results = s.results ++ [v] ∧
      exec .get s = .next u ∧ u.results = s.results ++ [v]) ↔
    reverseBits s.params.initialValue s.w = s.params.initialValue := by
  obtain ⟨-, hzero⟩ := zeroLengthData s hs
  obtain ⟨hcalc, hpal, -⟩ := hzero hout
  rw [hcalc, exec_get_of_fresh hs hfresh, ← hpal]
  constructor
  · rintro ⟨v, _, _, ⟨rfl⟩, hv, ⟨rfl⟩, hv'⟩
    have hsame := List.append_cancel_left (hv.trans hv'.symm)
    exact List.singleton_inj.mp hsame
  · intro h
    exact ⟨_, _, _, rfl, rfl, rfl, congrArg (s.results ++ [·]) h.symm⟩

/-- An output-only engine of width 8 with the table entries two chunks of one zero byte read: entry
0x01 at the register 0x01, entry 0x80 at its reversal. -/
def twoChunkEngine : State :=
  { State.reset with table := [(0x01, 0x01), (0x80, 0x02)] }.configure
    (truncParams ⟨8, false, true, 0x07, 0x01, 0x00⟩)
    (truncParams ⟨8, false, true, 0x07, 0x01, 0x00⟩).initialValue

/-- Its registers are those of an INIT, so they fit. -/
theorem twoChunkEngine_fits : RegistersFit twoChunkEngine :=
  registersFit_configure_truncParams _ (by decide)

/-- CALC of two zero bytes returns 0x80 there, and the two bytes given to ACCUM one by one and then GET
return 0x40: the second ACCUM starts from the reversed register. -/
theorem twoChunkEngine_results :
    ∃ t u, exec (.calculate ([0x00] ++ [0x00])) twoChunkEngine = .next t ∧
      runCommands [.accum [0x00], .accum [0x00], .get] twoChunkEngine = .next u ∧
      t.results.getLast? = some 0x80 ∧ u.results.getLast? = some 0x40 :=
  ⟨_, _, rfl, rfl, by decide, by decide⟩

/-- Settles O38: one chunk by the datapath CALC and ACCUM share, no chunk by the law of empty data, and
two chunks by an engine where they differ. -/
theorem chunkingInOutputOnly : Obligations.ChunkingInOutputOnly := by
  refine ⟨fun data s hs hfresh _ => ?_, fun s hs hfresh hout =>
    calculate_nil_agrees_with_get_iff hs hfresh hout, ?_⟩
  · obtain ⟨v, u, hcalc, haccum, hu⟩ := exec_accum_delivers_calculate_of_fresh data hs hfresh
    obtain ⟨hreport, t, hget, ht⟩ := accumReturnsWhatTheNextGetReturns data s u haccum
    have hv := List.append_cancel_left (hreport.symm.trans hu)
    exact ⟨v, u, t, hcalc, haccum, hu, hget, by rw [ht, hv]⟩
  · obtain ⟨t, u, hcalc, hrun, ht, hu⟩ := twoChunkEngine_results
    refine ⟨[0x00], [0x00], twoChunkEngine, t, u, rfl, twoChunkEngine_fits, rfl, ⟨rfl, rfl⟩, hcalc,
      hrun, ?_⟩
    rw [ht, hu]
    decide

/-- Settles O41: with no data the ACCUMs only reverse, and reversing twice gives a w-bit register
back. -/
theorem twoEmptyAccumsRestoreTheRegister : Obligations.TwoEmptyAccumsRestoreTheRegister := by
  intro s hs hfit hout
  obtain ⟨t, hrun, hacc⟩ := runCommands_accums [[], []] hs
  rw [accumValue_of_outputOnly _ hout] at hacc
  obtain ⟨-, hw64, -⟩ := width_bounds hfit.width
  exact ⟨t, hrun, hacc.trans (reverseBits_reverseBits hw64 hfit.accumulate)⟩

end Sys2Proof.Machine
end

section
/-! The table memory as the host sees it (20_memory.md section 2, 70_reset_and_hazards.md section 2):
supplied entries read back, and memories in canonical form are equal when they read alike. -/

namespace Sys2Proof.Machine

/-! ## The supply of a run of entries -/

/-- The supply of entries from index `i` upwards leaves the entries below `i` (R104). -/
theorem Memory.read_writeFrom_of_lt {m : Memory} {i j : Nat} (vs : List Word) (hj : j < i)
    (h : m.Pairwise fun c d => c.1 < d.1) :
    Memory.read (Memory.writeFrom m i vs) j = Memory.read m j := by
  induction vs generalizing m i with
  | nil => rfl
  | cons v vs ih =>
    have hne : i ≠ j := by omega
    rw [Memory.writeFrom, ih (by omega) (Memory.rising_write i v h), Memory.read_write m i v j h,
      if_neg hne]

/-- Entry `k` of a run supplied from index `i` upwards reads back at index `i + k` (R104). -/
theorem Memory.getElem?_eq_read_writeFrom {m : Memory} {i k : Nat} {vs : List Word}
    (hk : k < vs.length) (h : m.Pairwise fun c d => c.1 < d.1) :
    vs[k]? = some (Memory.read (Memory.writeFrom m i vs) (i + k)) := by
  induction vs generalizing m i k with
  | nil => exact absurd hk (Nat.not_lt_zero k)
  | cons v vs ih =>
    have hrising := Memory.rising_write i v h
    rw [Memory.writeFrom]
    cases k with
    | zero =>
      rw [Nat.add_zero i, Memory.read_writeFrom_of_lt vs (Nat.lt_add_one i) hrising,
        Memory.read_write m i v i h, if_pos rfl, List.getElem?_cons_zero]
    | succ k =>
      rw [List.getElem?_cons_succ, ih (i := i + 1) (Nat.lt_of_succ_lt_succ hk) hrising,
        Nat.add_right_comm, Nat.add_assoc]

/-- Settles O48: 256 entries supplied from index 0 read back, and the supply writes the table only. -/
theorem suppliedTableReadsBack : Obligations.SuppliedTableReadsBack := by
  intro s entries hwf hlen
  refine ⟨State.supplyTable_wf entries hwf, fun i => ?_, State.supplyTable_params ..,
    State.supplyTable_accumulate .., State.supplyTable_configured ..⟩
  have htake : entries.take Config.tableDepth = entries := List.take_of_length_le hlen.le
  have hi : i.toNat < entries.length := hlen ▸ i.isLt
  rw [State.tableRead, State.supplyTable_table, htake,
    Memory.getElem?_eq_read_writeFrom (i := 0) hi hwf.1, Nat.zero_add]

/-! ## Reads determine a memory in canonical form -/

/-- An index that is not listed reads as the free value. -/
theorem Memory.read_of_not_listed {m : Memory} {i : Nat} (h : ∀ c ∈ m, c.1 ≠ i) :
    Memory.read m i = Config.table i := by
  induction m with
  | nil => rfl
  | cons c m ih =>
    obtain ⟨hc, hm⟩ := List.forall_mem_cons.mp h
    rw [Memory.read, if_neg hc, ih hm]

/-- A listed entry reads as its content. -/
theorem Memory.read_of_mem {m : Memory} {c : TableCell} (h : m.Pairwise fun c d => c.1 < d.1)
    (hc : c ∈ m) : Memory.read m c.1 = c.2 := by
  induction m with
  | nil => exact absurd hc List.not_mem_nil
  | cons d m ih =>
    obtain ⟨hd, hm⟩ := List.pairwise_cons.mp h
    obtain rfl | hc := List.mem_cons.mp hc
    · rw [Memory.read, if_pos rfl]
    · rw [Memory.read, if_neg (hd c hc).ne, ih hm hc]

/-- In canonical form the listed entries are the indexes below 256 that do not read as the free value,
each with what it reads as. -/
theorem Memory.mem_iff_read {m : Memory} (h : Memory.wf m) (c : TableCell) :
    c ∈ m ↔ c.1 < Config.tableDepth ∧ Memory.read m c.1 = c.2 ∧ c.2 ≠ Config.table c.1 := by
  obtain ⟨hrising, hlisted⟩ := h
  constructor
  · intro hc
    obtain ⟨hlt, hne⟩ := hlisted c hc
    exact ⟨hlt, Memory.read_of_mem hrising hc, hne⟩
  · rintro ⟨-, hread, hne⟩
    by_contra hc
    refine hne (hread.symm.trans (Memory.read_of_not_listed fun d hd hdc => ?_))
    have hdread := Memory.read_of_mem hrising hd
    rw [hdc, hread] at hdread
    exact hc ((Prod.ext hdc hdread.symm : d = c) ▸ hd)

/-- Two lists of table entries with rising indexes and the same members are equal. -/
theorem Memory.eq_of_mem_iff {m m' : Memory} (h : m.Pairwise fun c d => c.1 < d.1)
    (h' : m'.Pairwise fun c d => c.1 < d.1) (hmem : ∀ c, c ∈ m ↔ c ∈ m') : m = m' := by
  have hirrefl : Std.Irrefl fun c d : TableCell => c.1 < d.1 := ⟨fun c => Nat.lt_irrefl c.1⟩
  have hantisymm : Std.Antisymm fun c d : TableCell => c.1 < d.1 :=
    ⟨fun _ _ hlt hgt => absurd hgt hlt.asymm⟩
  exact h.eq_of_mem_iff h' hmem

/-- Settles O49: memories that read alike list the same entries, and their order is the index order. -/
theorem tablesThatReadAlikeAreEqual : Obligations.TablesThatReadAlikeAreEqual := by
  intro m m' hm hm' hread
  refine Memory.eq_of_mem_iff hm.1 hm'.1 fun c => ?_
  rw [Memory.mem_iff_read hm, Memory.mem_iff_read hm']
  refine and_congr_right fun hlt => ?_
  have hbyte : (BitVec.ofNat 8 c.1).toNat = c.1 := Nat.mod_eq_of_lt hlt
  have hc := hread (BitVec.ofNat 8 c.1)
  rw [hbyte] at hc
  rw [hc]

end Sys2Proof.Machine
end

section
/-! The worked scenarios (95_test_vectors.md V1, V2): the CRC-32 of "hello world!!!", in three parts
and as a whole. -/

namespace Sys2Proof.Machine

/-- The CRC-32 record of V1: 32 bits, reflected on both sides. -/
def crc32Record : Params := ⟨32, true, true, 0x04C11DB7, 0xFFFFFFFF, 0xFFFFFFFF⟩

/-- The thirteen table entries the trace of V1 reads. -/
structure HelloTable (read : Byte → Word) : Prop where
  e97 : read 0x97#8 = 0x6E6B06E7#64
  e7D : read 0x7D#8 = 0x2EB40D81#64
  e14 : read 0x14#8 = 0x1ADAD47D#64
  e88 : read 0x88#8 = 0xE3630B12#64
  e73 : read 0x73#8 = 0xC90C2086#64
  e59 : read 0x59#8 = 0x12B7E950#64
  e7E : read 0x7E#8 = 0xB7BD5C3B#64
  e52 : read 0x52#8 = 0x856530D8#64
  eE1 : read 0xE1#8 = 0xD70DD2EE#64
  e53 : read 0x53#8 = 0xF262004E#64
  e5B : read 0x5B#8 = 0xFCB9887C#64
  eB3 : read 0xB3#8 = 0x5268E236#64
  e2A : read 0x2A#8 = 0xDBBBC9D6#64

/-- The CRC-32 record selects Branch A over 32 bits. -/
theorem foldBuffer_crc32Record (read : Byte → Word) (r : Word) (data : List Byte) :
    foldBuffer crc32Record read r data = data.foldl (foldA 32 read) r :=
  bufferIsFoldedInOrderByTheSelectedBranch crc32Record read r data

section
variable {read : Byte → Word} (h : HelloTable read)
include h

/-- "hello " from the initial value (V1). -/
theorem foldBuffer_hello :
    foldBuffer crc32Record read 0xFFFFFFFF [0x68, 0x65, 0x6C, 0x6C, 0x6F, 0x20] = 0x127E0609 := by
  rw [foldBuffer_crc32Record]
  simp [foldA, entry, indexA, trunc, h.e97, h.e7D, h.e14, h.e88, h.e73, h.e59]

/-- "world" behind it (V1). -/
theorem foldBuffer_world :
    foldBuffer crc32Record read 0x127E0609 [0x77, 0x6F, 0x72, 0x6C, 0x64] = 0xF2B5EE7A := by
  rw [foldBuffer_crc32Record]
  simp [foldA, entry, indexA, trunc, h.e7E, h.e52, h.e88, h.eE1, h.e53]

/-- "!!!" behind both (V1). -/
theorem foldBuffer_bangs :
    foldBuffer crc32Record read 0xF2B5EE7A [0x21, 0x21, 0x21] = 0xDBE95D7F := by
  rw [foldBuffer_crc32Record]
  simp [foldA, entry, indexA, trunc, h.e5B, h.eB3, h.e2A]

/-- "hello world!!!" in one piece is the three parts one after the other (R80, V1). -/
theorem foldBuffer_helloWorld :
    foldBuffer crc32Record read 0xFFFFFFFF [0x68, 0x65, 0x6C, 0x6C, 0x6F, 0x20, 0x77, 0x6F, 0x72,
      0x6C, 0x64, 0x21, 0x21, 0x21] = 0xDBE95D7F :=
  calc foldBuffer crc32Record read 0xFFFFFFFF ([0x68, 0x65, 0x6C, 0x6C, 0x6F, 0x20] ++
        ([0x77, 0x6F, 0x72, 0x6C, 0x64] ++ [0x21, 0x21, 0x21]))
      = foldBuffer crc32Record read 0x127E0609
          ([0x77, 0x6F, 0x72, 0x6C, 0x64] ++ [0x21, 0x21, 0x21]) := by
        rw [foldBuffer_append, foldBuffer_hello h]
    _ = 0xDBE95D7F := by rw [foldBuffer_append, foldBuffer_world h, foldBuffer_bangs h]

end

/-- A CRC-32 engine in the run of V1 and V2: the entries of the trace, the running register and the
results delivered so far. -/
structure HelloEngine (s : State) (a : Word) (rs : List Word) : Prop where
  configured : s.configured = true
  params : s.params = crc32Record
  table : HelloTable s.tableRead
  accumulate : s.accumulate = a
  results : s.results = rs

section
variable {s : State} {a : Word} {rs : List Word} (h : HelloEngine s a rs)
include h

/-- CALC returns the fold from the initial value with all 32 bits flipped (R67, R70). -/
theorem HelloEngine.calculate {data : List Byte} {r : Word}
    (hr : foldBuffer crc32Record s.tableRead 0xFFFFFFFF data = r) :
    ∃ t, exec (.calculate data) s = .next t ∧ HelloEngine t a (rs ++ [r ^^^ 0xFFFFFFFF]) := by
  refine ⟨_, exec_calculate_of_configured data h.configured, h.configured, h.params, h.table,
    h.accumulate, ?_⟩
  rw [State.deliver_results, h.results, State.process, h.params]
  exact congrArg (fun v => rs ++ [v ^^^ 0xFFFFFFFF]) hr

/-- ACCUM keeps the fold from the running register and returns it with all 32 bits flipped (R67, R73). -/
theorem HelloEngine.accum {data : List Byte} {r : Word}
    (hr : foldBuffer crc32Record s.tableRead a data = r) :
    ∃ t, exec (.accum data) s = .next t ∧ HelloEngine t r (rs ++ [r ^^^ 0xFFFFFFFF]) := by
  have hstored : (s.process s.accumulate data).stored = r := by
    rw [State.process, h.params, h.accumulate, hr]
    rfl
  refine ⟨_, exec_accum_of_configured data h.configured, h.configured, h.params, h.table, hstored, ?_⟩
  rw [State.deliver_results, State.setAccumulate_results, State.process_visible, hstored, h.params,
    h.results]
  rfl

/-- GET returns the running register with all 32 bits flipped and restores the initial value (R77). -/
theorem HelloEngine.get :
    ∃ t, exec .get s = .next t ∧ HelloEngine t 0xFFFFFFFF (rs ++ [a ^^^ 0xFFFFFFFF]) := by
  refine ⟨_, exec_get_of_configured h.configured, h.configured, h.params, h.table, ?_, ?_⟩
  · rw [State.deliver_accumulate, State.restoreInitial_accumulate, h.params]
    rfl
  · rw [State.deliver_results, State.restoreInitial_results, h.accumulate, h.params, h.results]
    rfl

end

/-- Settles O50: CALC returns the fold of the whole text, the ACCUMs the folds of its parts, and GET
what the last ACCUM returned. -/
theorem helloWorldHasItsCrc32 : Obligations.HelloWorldHasItsCrc32 := by
  intro s hs hp hacc h97 h7D h14 h88 h73 h59 h7E h52 hE1 h53 h5B hB3 h2A
  have h : HelloEngine s 0xFFFFFFFF s.results :=
    ⟨hs, hp, ⟨h97, h7D, h14, h88, h73, h59, h7E, h52, hE1, h53, h5B, hB3, h2A⟩, hacc, rfl⟩
  constructor
  · obtain ⟨t, hcalc, ht⟩ := h.calculate (foldBuffer_helloWorld h.table)
    exact ⟨t, hcalc, ht.results⟩
  · obtain ⟨t₁, hexec₁, h₁⟩ := h.accum (foldBuffer_hello h.table)
    obtain ⟨t₂, hexec₂, h₂⟩ := h₁.accum (foldBuffer_world h₁.table)
    obtain ⟨t₃, hexec₃, h₃⟩ := h₂.accum (foldBuffer_bangs h₂.table)
    obtain ⟨t₄, hexec₄, h₄⟩ := h₃.get
    refine ⟨t₄, ?_, ?_, h₄.accumulate⟩
    · rw [runCommands_cons_of_next hexec₁, runCommands_cons_of_next hexec₂,
        runCommands_cons_of_next hexec₃, runCommands_cons_of_next hexec₄, runCommands]
    · simp [h₄.results]

end Sys2Proof.Machine
end
